-- ==== Sys2Proof/Word.lean ====
section
/-! DEFINITION. The machine's word and byte (00_scope.md R8: 32-bit words, 8-bit bytes). All values are
unsigned (R10); `+` on `Word` wraps modulo 2^32 (R11). -/

namespace Sys2Proof

/-- An accumulator word, a working register, a message word or a round constant (R8 `WORD`). -/
abbrev Word := BitVec 32

/-- A byte of the payload, of `BUF` or of `DOUT` (R8). -/
abbrev Byte := BitVec 8

end Sys2Proof
end

