-- ==== Sys2Proof/Config.lean ====
section
/-! DEFINITION. What the spec leaves open. The OPEN parameters `HANDSHAKE`, `ILEN_MAX`, `FRAMING` and `BASE`
(00_scope.md R9) have no field here: "no rule's result depends on an OPEN one". -/

namespace Sys2Proof

/-- The free draws behind every `any` of the spec (00_scope.md R12: "a free draw and no claim may depend on it"):
the value of the given draw for the given register. It has no body, so nothing can be proved of a value of it.
Safe: log entry 2. -/
opaque Config.freeBits : (draw slot : Nat) → BitVec 64

/-- What a byte of `BUF` or `DOUT` that nothing has written reads as: the reset value the model names.
DESIGN CHOICE, unsafe: log entries 1 and 3. -/
def Config.unlistedByte : Byte := 0x00#8

end Sys2Proof
end

