-- ==== Sys2Proof/Syntax.lean ====
section
/-! DEFINITION. The instructions of spec/opcode_table.json, one constructor per row, and the tokens that
select them: a host command at the command port (30_encoding.md R81) or a sequencer code (R88). -/

namespace Sys2Proof

/-- The four host commands and the twelve sequencer rows (00_scope.md R2, 30_encoding.md R84 and R88).
The only operand is the payload of `UPDATE` and `HASH` (R83): any number of bytes, position 0 first. -/
inductive Instr where
  | init
  | update (data : List Byte)
  | final
  | hash (data : List Byte)
  | idle
  | uinit
  | absorb
  | load
  | round
  | combine
  | latch
  | pad80
  | padz
  | padlen
  | out
  | refuse
deriving DecidableEq, Repr

/-- What the host drives at the command port: `cmd_op` and `cmd_payload` (R80, R81). -/
structure Command where
  op : BitVec 2
  payload : List Byte
deriving DecidableEq, Repr

/-- The bits that select an instruction: a command (formats `C0` and `C1`) or the value of `SEQ`
(format `SEQ`, R93). -/
inductive Token where
  | command (c : Command)
  | sequencer (code : BitVec 4)
deriving DecidableEq, Repr

/-! The codes of `SEQ` (R88). -/

def SeqCode.idle : BitVec 4 := 0x0#4
def SeqCode.uinit : BitVec 4 := 0x1#4
def SeqCode.absorb : BitVec 4 := 0x2#4
def SeqCode.load : BitVec 4 := 0x3#4
def SeqCode.round : BitVec 4 := 0x4#4
def SeqCode.combine : BitVec 4 := 0x5#4
def SeqCode.latch : BitVec 4 := 0x6#4
def SeqCode.pad80 : BitVec 4 := 0x7#4
def SeqCode.padz : BitVec 4 := 0x8#4
def SeqCode.padlen : BitVec 4 := 0x9#4
def SeqCode.out : BitVec 4 := 0xA#4
def SeqCode.refuse : BitVec 4 := 0xB#4

/-- The four operations a 2-bit opcode names (R84); what the register `OPL` holds (10_state.md R34). -/
inductive Op where
  | init
  | update
  | final
  | hash
deriving DecidableEq, Repr

end Sys2Proof
end

