-- ==== Sys2Proof/Decode.lean ====
section
/-! DEFINITION. The decoder and the encoder of 30_encoding.md: R82 and R84 for a command, R88 for a sequencer
code; and the opcode table's words. -/

namespace Sys2Proof

/-- Why a token names no instruction. Only a sequencer code can (R86: no command encoding is illegal). -/
inductive DecodeError where
  /-- `SEQ` = 0xC..0xF, "never entered" (R88). -/
  | unusedSeq (code : BitVec 4)
deriving DecidableEq, Repr

/-- The row `op[1:0]` selects (R84). -/
def Op.ofBits (op : BitVec 2) : Op :=
  if op = 0b00#2 then .init
  else if op = 0b01#2 then .update
  else if op = 0b10#2 then .final
  else .hash

/-- The code of an operation (R84). -/
def Op.bits : Op → BitVec 2
  | .init => 0b00#2
  | .update => 0b01#2
  | .final => 0b10#2
  | .hash => 0b11#2

/-- R84: "op[1:0] selects the row; if op[0] = 1 collect the payload". A `C0` command has no payload to collect. -/
def decodeCommand (c : Command) : Instr :=
  match Op.ofBits c.op with
  | .init => .init
  | .update => .update c.payload
  | .final => .final
  | .hash => .hash c.payload

/-- The micro-operation a value of `SEQ` names (R88). -/
def decodeSeq (code : BitVec 4) : Except DecodeError Instr :=
  if code = SeqCode.idle then .ok .idle
  else if code = SeqCode.uinit then .ok .uinit
  else if code = SeqCode.absorb then .ok .absorb
  else if code = SeqCode.load then .ok .load
  else if code = SeqCode.round then .ok .round
  else if code = SeqCode.combine then .ok .combine
  else if code = SeqCode.latch then .ok .latch
  else if code = SeqCode.pad80 then .ok .pad80
  else if code = SeqCode.padz then .ok .padz
  else if code = SeqCode.padlen then .ok .padlen
  else if code = SeqCode.out then .ok .out
  else if code = SeqCode.refuse then .ok .refuse
  else .error (.unusedSeq code)

/-- The instruction a token selects, total over all tokens. -/
def decode : Token → Except DecodeError Instr
  | .command c => .ok (decodeCommand c)
  | .sequencer code => decodeSeq code

/-- The token of an instruction (R84, R88). -/
def encode : Instr → Token
  | .init => .command ⟨0b00#2, []⟩
  | .update data => .command ⟨0b01#2, data⟩
  | .final => .command ⟨0b10#2, []⟩
  | .hash data => .command ⟨0b11#2, data⟩
  | .idle => .sequencer 0x0#4
  | .uinit => .sequencer 0x1#4
  | .absorb => .sequencer 0x2#4
  | .load => .sequencer 0x3#4
  | .round => .sequencer 0x4#4
  | .combine => .sequencer 0x5#4
  | .latch => .sequencer 0x6#4
  | .pad80 => .sequencer 0x7#4
  | .padz => .sequencer 0x8#4
  | .padlen => .sequencer 0x9#4
  | .out => .sequencer 0xA#4
  | .refuse => .sequencer 0xB#4

/-- The token a word of spec/opcode_table.json stands for. A command row has 2 bits and a sequencer row 4; a
payload is no part of the matched bits and is empty here. In a whole byte the values 0 to 3 are both a command
and a `SEQ` code: R93 says only the command rows are decodable from bits a host supplies, so there they are the
command. DESIGN CHOICE, safe: log entry 7. -/
def tableToken (nbits w : Nat) : Option Token :=
  if nbits = 2 then
    if w < 4 then some (.command ⟨BitVec.ofNat 2 w, []⟩) else none
  else if nbits = 4 then
    if w < 16 then some (.sequencer (BitVec.ofNat 4 w)) else none
  else if nbits = 8 then
    if w < 4 then some (.command ⟨BitVec.ofNat 2 w, []⟩)
    else if w < 16 then some (.sequencer (BitVec.ofNat 4 w)) else none
  else none

/-- The instruction the decoder reads from a word of the opcode table. -/
def decodeTableWord (nbits w : Nat) : Option Instr :=
  match tableToken nbits w with
  | none => none
  | some t =>
    match decode t with
    | .ok i => some i
    | .error _ => none

end Sys2Proof
end

