-- ==== Sys2Proof/Machine/State.lean ====
section
/-! DEFINITION. The state of one engine (10_state.md R20), the ports of 30_encoding.md R80 as plain data, the
reasons a step can stop, and the state after reset (10_state.md R40). -/

namespace Sys2Proof.Machine

/-- Five chaining words `H[0..4]` (R21). -/
structure Chain where
  h0 : Word
  h1 : Word
  h2 : Word
  h3 : Word
  h4 : Word
deriving DecidableEq, Repr

/-- The five working registers of one line (R22): `AL..EL` or `AR..ER`. -/
structure Line where
  a : Word
  b : Word
  c : Word
  d : Word
  e : Word
deriving DecidableEq, Repr

/-- `PHASE`: where the context is in its lifecycle (R30). The value 0b11 is produced by no rule. -/
inductive Phase where
  | uninit
  | active
  | done
deriving DecidableEq, Repr

/-- `RET`: where control returns after a compression (R34). The value 3 is never written. -/
inductive Ret where
  | abs
  | spill
  | last
deriving DecidableEq, Repr

/-- `rsp_code` (30_encoding.md R92). The value 0b11 is never produced. -/
inductive RspCode where
  | ok
  | notInitialised
  | alreadyFinalised
deriving DecidableEq, Repr

/-- A response, format `RSP` (R81): the outcome, and the twenty digest bytes where the command gives them. -/
structure Response where
  code : RspCode
  digest : Option (List Byte)
deriving DecidableEq, Repr

/-- At which of the spec's two levels a command is run: as one atomic transition of the architectural state
(92_eei_decisions.md D1) or through the sequencer (D15). The host cannot tell them apart. Log entry 6. -/
inductive Grain where
  | command
  | sequencer
deriving DecidableEq, Repr

/-- A byte-addressed space as a list of cells, strictly rising, none equal to what an unlisted address reads as.
`BUF` (64 bytes) and `DOUT` (20 bytes) are such spaces (R36). -/
abbrev Memory := List Host.Cell

/-- Everything the spec gives the engine (R20), its ports (30_encoding.md R80), and two fields of the model's own
(`grain`, `draws`). -/
@[ext]
structure State where
  /-- `H[0..4]` (R21). -/
  h : Chain
  /-- `TOTAL`, the 64-bit byte counter (R24). -/
  total : BitVec 64
  /-- `BUF[0..63]` (R26). -/
  buf : Memory
  /-- `PHASE` (R30). -/
  phase : Phase
  /-- `ERR`, sticky (R31). -/
  err : Bool
  /-- `DOUT[0..19]` (R29). -/
  dout : Memory
  /-- `AL BL CL DL EL` (R22). -/
  left : Line
  /-- `AR BR CR DR ER` (R22). -/
  right : Line
  /-- `X[0..15]` (R27). -/
  x : Vector Word 16
  /-- `LEN` (R28). -/
  len : BitVec 64
  /-- `P` (R28). -/
  p : BitVec 7
  /-- `J` (R33). -/
  j : BitVec 7
  /-- `OPL` (R34). -/
  opl : Op
  /-- `RET` (R34). -/
  ret : Ret
  /-- `SEQ` (R33), with the codes of 30_encoding.md R88. -/
  seq : BitVec 4
  /-- `PAYLOAD`: the bytes of the command in progress not yet absorbed (R36). -/
  payload : List Byte
  /-- `rsp_code` and its digest: the response to the last command, absent while a command is in progress (R81). -/
  response : Option Response
  /-- The commands the host will offer, oldest first (20_memory.md R70(a)). -/
  pending : List Command
  /-- The `rst` events the host will fire: before each, how many steps the engine takes (70_reset_and_hazards.md
  R220, R233). -/
  rstIn : List Nat
  /-- The model's own: the level at which the next command runs. -/
  grain : Grain
  /-- The model's own: how many free draws were made. -/
  draws : Nat
deriving DecidableEq, Repr

/-- Why a step can stop. Each is a combination the spec says is never produced (93_implementation_defined.md U11:
"stuck (no transition)"); no run from reset reaches one. All are safe: the model stops where no rule says more. -/
inductive Fault where
  /-- Raised by the fetch: `SEQ` holds 0xC..0xF (30_encoding.md R88 "never entered"). Safe. -/
  | unusedSeq (code : BitVec 4)
  /-- Raised by `UINIT`, `ABSORB` and `COMBINE`: 45_sequencer.md R186 has no row for this `OPL`
  ("No other transition exists"). Safe. -/
  | noTransition (code : BitVec 4) (opl : Op)
  /-- Raised by `ROUND`: `J` above 79, an index the ROM does not have (20_memory.md R59). Safe. -/
  | romIndex (j : BitVec 7)
  /-- Raised by `PAD80` and `PADZ`: `P` above 63, an index `BUF` does not have (43_final.md R163, R164). Safe. -/
  | bufIndex (p : BitVec 7)
  /-- Raised by `PADLEN`: `P` outside 56..63 (43_final.md R165). Safe. -/
  | lengthIndex (p : BitVec 7)
deriving DecidableEq, Repr

/-- Why an instruction has no meaning. -/
inductive Refusal where
  /-- An arm of `exec` that has no meaning yet; no arm raises it in this model. Safe. -/
  | notModelled (mnemonic : String)
deriving DecidableEq, Repr

/-- The state right after reset: `PHASE`, `ERR` and `SEQ` as R40 says; every other register, "unspecified" there,
at the value log entry 1 names (DESIGN CHOICE, unsafe); no command in progress and no response (R220). -/
def State.reset : State where
  h := ⟨0#32, 0#32, 0#32, 0#32, 0#32⟩
  total := 0#64
  buf := []
  phase := .uninit
  err := false
  dout := []
  left := ⟨0#32, 0#32, 0#32, 0#32, 0#32⟩
  right := ⟨0#32, 0#32, 0#32, 0#32, 0#32⟩
  x := #v[0#32, 0#32, 0#32, 0#32, 0#32, 0#32, 0#32, 0#32,
          0#32, 0#32, 0#32, 0#32, 0#32, 0#32, 0#32, 0#32]
  len := 0#64
  p := 0#7
  j := 0#7
  opl := .init
  ret := .abs
  seq := SeqCode.idle
  payload := []
  response := none
  pending := []
  rstIn := []
  grain := .sequencer
  draws := 0

end Sys2Proof.Machine
end

