-- ==== Sys2Proof/Machine/Operands.lean ====
section
/-! DEFINITION. Byte and word assembly, rotation, and the views of the counter: 00_scope.md R11,
20_memory.md R51 to R54, 10_state.md R24 and R25, 43_final.md R161 and R167. -/

namespace Sys2Proof.Machine

/-- `rol(a, s)` for `1 <= s <= 31`: "((a << s) mod 2^32) | (a >> (32 - s))" (R11). -/
def rol (a : Word) (s : Nat) : Word :=
  (a <<< s) ||| (a >>> (32 - s))

/-- `le32(b0,b1,b2,b3)`: the first byte is the least significant (R11). -/
def le32 (b0 b1 b2 b3 : Byte) : Word :=
  b3 ++ b2 ++ b1 ++ b0

/-- `byte(v, k)`: `v[8k+7:8k]` (R11). -/
def byteOf {n : Nat} (v : BitVec n) (k : Nat) : Byte :=
  (v >>> (8 * k)).setWidth 8

/-- The four bytes of a word, least significant first. -/
def le32Bytes (v : Word) : List Byte :=
  [byteOf v 0, byteOf v 1, byteOf v 2, byteOf v 3]

/-- `le64(v)`: eight bytes, least significant first (R11). -/
def le64 (v : BitVec 64) : List Byte :=
  [byteOf v 0, byteOf v 1, byteOf v 2, byteOf v 3, byteOf v 4, byteOf v 5, byteOf v 6, byteOf v 7]

/-- Word `i` of a block: `le32(B[4i], B[4i+1], B[4i+2], B[4i+3])` (20_memory.md R51). -/
def messageWord (block : Nat → Byte) (i : Nat) : Word :=
  le32 (block (4 * i)) (block (4 * i + 1)) (block (4 * i + 2)) (block (4 * i + 3))

/-- The sixteen message words of a block (R51). -/
def messageWords (block : Nat → Byte) : Vector Word 16 :=
  #v[messageWord block 0, messageWord block 1, messageWord block 2, messageWord block 3,
     messageWord block 4, messageWord block 5, messageWord block 6, messageWord block 7,
     messageWord block 8, messageWord block 9, messageWord block 10, messageWord block 11,
     messageWord block 12, messageWord block 13, messageWord block 14, messageWord block 15]

/-- The twenty digest bytes: the five words in order, each least significant byte first (20_memory.md R53). -/
def serialise (h : Chain) : List Byte :=
  le32Bytes h.h0 ++ le32Bytes h.h1 ++ le32Bytes h.h2 ++ le32Bytes h.h3 ++ le32Bytes h.h4

/-- `zeros(k)` (R10). -/
def zeros (k : Nat) : List Byte :=
  List.replicate k 0x00#8

/-- `TOTAL_LO = TOTAL[31:0]` (10_state.md R24, 20_memory.md R54). -/
def State.totalLo (s : State) : Word :=
  s.total.setWidth 32

/-- `TOTAL_HI = TOTAL[63:32]` (R24, R54). -/
def State.totalHi (s : State) : Word :=
  (s.total >>> 32).setWidth 32

/-- `n = TOTAL mod 64`, the number of valid bytes in `BUF` (10_state.md R25). -/
def State.count (s : State) : Nat :=
  s.total.toNat % 64

/-- The counter addition `TOTAL +64 (ilen mod 2^64)`; the carry out is dropped (41_update.md R111). -/
def addTotal (total : BitVec 64) (ilen : Nat) : BitVec 64 :=
  total + BitVec.ofNat 64 ilen

/-- The bit length `(TOTAL << 3) mod 2^64` (43_final.md R161, R167). -/
def bitLength (total : BitVec 64) : BitVec 64 :=
  total <<< 3

/-- `TOTAL mod 64`, zero-extended to the seven bits of `P` (43_final.md R161). -/
def padStart (total : BitVec 64) : BitVec 7 :=
  (total.setWidth 6).setWidth 7

/-- The tail `FINAL` compresses (43_final.md R160): the buffered bytes, the marker 0x80, `(55 - n) mod 64` zero
bytes (`n` the number of buffered bytes), and the bit length. -/
def padTail (buffered : List Byte) (total : BitVec 64) : List Byte :=
  buffered ++ [0x80#8] ++ zeros ((119 - buffered.length) % 64) ++ le64 (bitLength total)

end Sys2Proof.Machine
end

