-- ==== Sys2Proof/Machine/Rom.lean ====
section
/-! DEFINITION. The constant ROM (20_memory.md R58): seven tables, immutable (R60). R62 to R67 are marked in the
spec as general knowledge, checked there against the source's own digests. -/

namespace Sys2Proof.Machine

/-- `IV[0..4]` (R61). -/
def Rom.iv : Chain :=
  ⟨0x67452301#32, 0xEFCDAB89#32, 0x98BADCFE#32, 0x10325476#32, 0xC3D2E1F0#32⟩

/-- `KL[g]`, `g` in 0..4 (R62). -/
def Rom.kl (g : Nat) : Word :=
  match g with
  | 0 => 0x00000000#32
  | 1 => 0x5A827999#32
  | 2 => 0x6ED9EBA1#32
  | 3 => 0x8F1BBCDC#32
  | _ => 0xA953FD4E#32

/-- `KR[g]`, `g` in 0..4 (R63). -/
def Rom.kr (g : Nat) : Word :=
  match g with
  | 0 => 0x50A28BE6#32
  | 1 => 0x5C4DD124#32
  | 2 => 0x6D703EF3#32
  | 3 => 0x7A6D76E9#32
  | _ => 0x00000000#32

/-- The left line's message-word order, one row per stage (R64). -/
def Rom.rlTable : List (BitVec 4) :=
  [0#4, 1#4, 2#4, 3#4, 4#4, 5#4, 6#4, 7#4, 8#4, 9#4, 10#4, 11#4, 12#4, 13#4, 14#4, 15#4] ++
  [7#4, 4#4, 13#4, 1#4, 10#4, 6#4, 15#4, 3#4, 12#4, 0#4, 9#4, 5#4, 2#4, 14#4, 11#4, 8#4] ++
  [3#4, 10#4, 14#4, 4#4, 9#4, 15#4, 8#4, 1#4, 2#4, 7#4, 0#4, 6#4, 13#4, 11#4, 5#4, 12#4] ++
  [1#4, 9#4, 11#4, 10#4, 0#4, 8#4, 12#4, 4#4, 13#4, 3#4, 7#4, 15#4, 14#4, 5#4, 6#4, 2#4] ++
  [4#4, 0#4, 5#4, 9#4, 7#4, 12#4, 2#4, 10#4, 14#4, 1#4, 3#4, 8#4, 11#4, 6#4, 15#4, 13#4]

/-- The right line's message-word order, one row per stage (R65). -/
def Rom.rrTable : List (BitVec 4) :=
  [5#4, 14#4, 7#4, 0#4, 9#4, 2#4, 11#4, 4#4, 13#4, 6#4, 15#4, 8#4, 1#4, 10#4, 3#4, 12#4] ++
  [6#4, 11#4, 3#4, 7#4, 0#4, 13#4, 5#4, 10#4, 14#4, 15#4, 8#4, 12#4, 4#4, 9#4, 1#4, 2#4] ++
  [15#4, 5#4, 1#4, 3#4, 7#4, 14#4, 6#4, 9#4, 11#4, 8#4, 12#4, 2#4, 10#4, 0#4, 4#4, 13#4] ++
  [8#4, 6#4, 4#4, 1#4, 3#4, 11#4, 15#4, 0#4, 5#4, 12#4, 2#4, 13#4, 9#4, 7#4, 10#4, 14#4] ++
  [12#4, 15#4, 10#4, 4#4, 1#4, 5#4, 8#4, 7#4, 6#4, 2#4, 13#4, 14#4, 0#4, 3#4, 9#4, 11#4]

/-- The left line's rotation amounts, one row per stage (R66). -/
def Rom.slTable : List (BitVec 4) :=
  [11#4, 14#4, 15#4, 12#4, 5#4, 8#4, 7#4, 9#4, 11#4, 13#4, 14#4, 15#4, 6#4, 7#4, 9#4, 8#4] ++
  [7#4, 6#4, 8#4, 13#4, 11#4, 9#4, 7#4, 15#4, 7#4, 12#4, 15#4, 9#4, 11#4, 7#4, 13#4, 12#4] ++
  [11#4, 13#4, 6#4, 7#4, 14#4, 9#4, 13#4, 15#4, 14#4, 8#4, 13#4, 6#4, 5#4, 12#4, 7#4, 5#4] ++
  [11#4, 12#4, 14#4, 15#4, 14#4, 15#4, 9#4, 8#4, 9#4, 14#4, 5#4, 6#4, 8#4, 6#4, 5#4, 12#4] ++
  [9#4, 15#4, 5#4, 11#4, 6#4, 8#4, 13#4, 12#4, 5#4, 12#4, 13#4, 14#4, 11#4, 8#4, 5#4, 6#4]

/-- The right line's rotation amounts, one row per stage (R67). -/
def Rom.srTable : List (BitVec 4) :=
  [8#4, 9#4, 9#4, 11#4, 13#4, 15#4, 15#4, 5#4, 7#4, 7#4, 8#4, 11#4, 14#4, 14#4, 12#4, 6#4] ++
  [9#4, 13#4, 15#4, 7#4, 12#4, 8#4, 9#4, 11#4, 7#4, 7#4, 12#4, 7#4, 6#4, 15#4, 13#4, 11#4] ++
  [9#4, 7#4, 15#4, 11#4, 8#4, 6#4, 6#4, 14#4, 12#4, 13#4, 5#4, 14#4, 13#4, 13#4, 7#4, 5#4] ++
  [15#4, 5#4, 8#4, 11#4, 14#4, 14#4, 6#4, 14#4, 6#4, 9#4, 12#4, 9#4, 12#4, 5#4, 15#4, 8#4] ++
  [8#4, 5#4, 12#4, 9#4, 12#4, 5#4, 14#4, 6#4, 8#4, 13#4, 6#4, 5#4, 15#4, 13#4, 11#4, 11#4]

/-- `RL[j]`, `j` in 0..79 (R64); `ROUND` reads no other index (R59). -/
def Rom.rl (j : Nat) : BitVec 4 :=
  Rom.rlTable.getD j 0#4

/-- `RR[j]`, `j` in 0..79 (R65); `ROUND` reads no other index (R59). -/
def Rom.rr (j : Nat) : BitVec 4 :=
  Rom.rrTable.getD j 0#4

/-- `SL[j]`, `j` in 0..79 (R66); `ROUND` reads no other index (R59). -/
def Rom.sl (j : Nat) : BitVec 4 :=
  Rom.slTable.getD j 0#4

/-- `SR[j]`, `j` in 0..79 (R67); `ROUND` reads no other index (R59). -/
def Rom.sr (j : Nat) : BitVec 4 :=
  Rom.srTable.getD j 0#4

/-- The stage of a round: `g = j div 16` (R59). -/
def stage (j : Nat) : Nat :=
  j / 16

end Sys2Proof.Machine
end

