-- ==== Sys2Proof/Machine/Flags.lean ====
section
/-! DEFINITION. `STATUS` and its parts (10_state.md R30 to R32), the response codes (30_encoding.md R92), and the
admission check (60_exceptions.md R193). The block has no arithmetic flag (R31). -/

namespace Sys2Proof.Machine

/-- The two bits of `PHASE` (R30). -/
def Phase.bits : Phase → BitVec 2
  | .uninit => 0b00#2
  | .active => 0b01#2
  | .done => 0b10#2

/-- The two bits of `rsp_code` (R92). -/
def RspCode.bits : RspCode → BitVec 2
  | .ok => 0b00#2
  | .notInitialised => 0b01#2
  | .alreadyFinalised => 0b10#2

/-- `STATUS[1:0] = PHASE`, `STATUS[2] = ERR` (R32). -/
def State.status (s : State) : BitVec 3 :=
  BitVec.ofBool s.err ++ s.phase.bits

/-- What the admission check answers for `UPDATE` and `FINAL`: admitted (`none`), or the cause of the
`ProtocolError` (R191, R193). `INIT` and `HASH` are admitted in every phase. -/
def Phase.refusal : Phase → Option RspCode
  | .uninit => some .notInitialised
  | .active => none
  | .done => some .alreadyFinalised

end Sys2Proof.Machine
end

