-- ==== Sys2Proof/Machine/Ops.lean ====
section
/-! DEFINITION. The shared operations: bytes of `BUF` and `DOUT`, free draws, responses, the `ProtocolError`, the
return to `IDLE`, the reset event, and the fetch of the next token. -/

namespace Sys2Proof.Machine

/-! Byte-addressed spaces (`MemRead`, `MemWrite` of 00_scope.md R12). -/

/-- The byte at an address. -/
def Memory.read : Memory → Nat → Byte
  | [], _ => Config.unlistedByte
  | (c, b) :: rest, a => if c = a then b else Memory.read rest a

/-- The cell list with the byte at an address replaced, in canonical form if it was. -/
def Memory.write : Memory → Nat → Byte → Memory
  | [], a, v => if v = Config.unlistedByte then [] else [(a, v)]
  | (c, b) :: rest, a, v =>
    if c < a then (c, b) :: Memory.write rest a v
    else if c = a then (if v = Config.unlistedByte then rest else (a, v) :: rest)
    else if v = Config.unlistedByte then (c, b) :: rest
    else (a, v) :: (c, b) :: rest

/-- `n` bytes from an address up, lowest index first. -/
def Memory.readBytes (m : Memory) (a : Nat) : Nat → List Byte
  | 0 => []
  | n + 1 => m.read a :: Memory.readBytes m (a + 1) n

/-- Bytes written from an address up. -/
def Memory.writeBytes (m : Memory) (a : Nat) : List Byte → Memory
  | [] => m
  | b :: bs => Memory.writeBytes (m.write a b) (a + 1) bs

/-- A whole space given by its bytes, lowest index first. -/
def Memory.ofBytes (bs : List Byte) : Memory :=
  Memory.writeBytes [] 0 bs

/-- Addresses strictly rise, from a lower bound on. -/
def Memory.rising (lo : Nat) : Memory → Bool
  | [] => true
  | (a, _) :: rest => decide (lo ≤ a) && Memory.rising (a + 1) rest

/-- The canonical form of a space of `size` bytes: strictly rising, inside the space, and no cell equal to what an
unlisted address reads as. -/
def Memory.wf (size : Nat) (m : Memory) : Bool :=
  Memory.rising 0 m && m.all (fun c => decide (c.1 < size) && decide (c.2 ≠ Config.unlistedByte))

/-! Free draws (00_scope.md R12 `any`). One event of the machine makes one draw for every register it leaves open;
the slot tells the registers apart. -/

/-- The free value of the given width for one register at a draw. -/
def anyBits (draw w slot : Nat) : BitVec w :=
  (Config.freeBits draw slot).setWidth w

/-- `count` free bytes, at the slots from `slot` up. -/
def anyBytes (draw slot : Nat) : Nat → List Byte
  | 0 => []
  | n + 1 => anyBits draw 8 slot :: anyBytes draw (slot + 1) n

/-- A value of `RET` from two free bits; each of its three values can result. -/
def Ret.ofBits (b : BitVec 2) : Ret :=
  if b = 0#2 then .abs else if b = 1#2 then .spill else .last

/-- A response code from two free bits; each of the codes can result. -/
def RspCode.ofBits (b : BitVec 2) : RspCode :=
  if b = 0#2 then .ok else if b = 1#2 then .notInitialised else .alreadyFinalised

/-- Five free words. -/
def anyChain (draw slot : Nat) : Chain :=
  ⟨anyBits draw 32 slot, anyBits draw 32 (slot + 1), anyBits draw 32 (slot + 2), anyBits draw 32 (slot + 3), anyBits draw 32 (slot + 4)⟩

/-- A line with the words of a chaining value in its five registers, in order (42_compress.md R136). -/
def Line.ofChain (h : Chain) : Line :=
  ⟨h.h0, h.h1, h.h2, h.h3, h.h4⟩

/-- Sixteen free words. -/
def anyWords (draw slot : Nat) : Vector Word 16 :=
  #v[anyBits draw 32 slot, anyBits draw 32 (slot + 1), anyBits draw 32 (slot + 2), anyBits draw 32 (slot + 3),
     anyBits draw 32 (slot + 4), anyBits draw 32 (slot + 5), anyBits draw 32 (slot + 6), anyBits draw 32 (slot + 7),
     anyBits draw 32 (slot + 8), anyBits draw 32 (slot + 9), anyBits draw 32 (slot + 10), anyBits draw 32 (slot + 11),
     anyBits draw 32 (slot + 12), anyBits draw 32 (slot + 13), anyBits draw 32 (slot + 14), anyBits draw 32 (slot + 15)]

/-- Every transient register takes a free value, and the draw is used up: what they hold "whenever `SEQ = IDLE`"
(10_state.md R37(a)). -/
def State.anyTransients (s : State) : State :=
  { s with
    left := Line.ofChain (anyChain s.draws 0)
    right := Line.ofChain (anyChain s.draws 5)
    x := anyWords s.draws 10
    len := anyBits s.draws 64 26
    p := anyBits s.draws 7 27
    j := anyBits s.draws 7 28
    opl := Op.ofBits (anyBits s.draws 2 29)
    ret := Ret.ofBits (anyBits s.draws 2 30)
    draws := s.draws + 1 }

/-- `BUF[n..63] <- any` (41_update.md R112, 10_state.md R37(b)); `BUF[0..n-1]` is kept. -/
def State.anyTail (s : State) : State :=
  { s with buf := Memory.ofBytes (s.buf.readBytes 0 s.count ++ anyBytes s.draws (64 + s.count) (64 - s.count)) }

/-- `H <- any; TOTAL <- any; BUF[0..63] <- any` (43_final.md R160, R169). -/
def State.anyContext (s : State) : State :=
  { s with
    h := anyChain s.draws 40
    total := anyBits s.draws 64 45
    buf := Memory.ofBytes (anyBytes s.draws 64 64) }

/-! Responses and the end of a command. -/

/-- `respond(code, digest?)`: the response is produced (R12, 30_encoding.md R81). -/
def State.respond (s : State) (code : RspCode) (digest : Option (List Byte)) : State :=
  { s with response := some ⟨code, digest⟩ }

/-- The digest bytes `DOUT[0..19]`. -/
def State.digest (s : State) : List Byte :=
  s.dout.readBytes 0 20

/-- A command is over: `SEQ` is `IDLE`, no payload is left, and the transients hold free values (R37(a)). -/
def State.retire (s : State) : State :=
  { s.anyTransients with seq := SeqCode.idle, payload := [] }

/-- The end of an admitted `INIT`: `respond(OK)` (40_init.md R100). -/
def State.finishInit (s : State) : State :=
  s.retire.respond .ok none

/-- The end of an admitted `UPDATE`: `BUF[rem..63] <- any; respond(OK)` (41_update.md R112). -/
def State.finishUpdate (s : State) : State :=
  s.anyTail.retire.respond .ok none

/-- The end of an admitted `FINAL` or `HASH`, once `DOUT` holds the digest: `PHASE <- DONE`, the context is open, and
`respond(OK, DOUT[0..19])` (43_final.md R160, R169). -/
def State.finishFinal (s : State) : State :=
  { s with phase := .done }.anyContext.retire.respond .ok (some s.digest)

/-- `ProtocolError(code)`, the block's one exception and its whole entry (60_exceptions.md R194, R197): `ERR <- 1`,
the payload is discarded, `respond(code)`, `SEQ <- IDLE`, and nothing else changes. There is no return from it
(R199). -/
def State.protocolError (s : State) (code : RspCode) : State :=
  { s with
    err := true
    payload := []
    response := some ⟨code, none⟩
    seq := SeqCode.idle }

/-- The `ProtocolError` of the phase the refused command arrived in (R191). For `PHASE = ACTIVE` the spec has no cause
code: the code alone is a free value there. DESIGN CHOICE, log entry 20. -/
def State.refuse (s : State) : State :=
  match s.phase.refusal with
  | some code => s.protocolError code
  | none => { s with draws := s.draws + 1 }.protocolError (RspCode.ofBits (anyBits s.draws 2 31))

/-- The admission check of `UPDATE` and `FINAL` at command level (R193): the effect, or the `ProtocolError`. -/
def State.admitted (s : State) (effect : State) : State :=
  match s.phase.refusal with
  | none => effect
  | some code => s.protocolError code

/-- A command is accepted only when `SEQ = IDLE`; offered at any other time it "is simply not accepted yet"
(70_reset_and_hazards.md R228). -/
def State.whenIdle (s : State) (effect : State) : State :=
  if s.seq = SeqCode.idle then effect else s

/-! The context (40_init.md R100, R101). -/

/-- `H[i] <- Rom(IV, i)`; `TOTAL <- 0` (R101). -/
def State.loadIv (s : State) : State :=
  { s with h := Rom.iv, total := 0#64 }

/-- The effects of `INIT`, without its response (R100, R180). -/
def State.createContext (s : State) : State :=
  { s.loadIv with phase := .active }

/-! The host's other ports. -/

/-- The reset event `rst` (70_reset_and_hazards.md R220): `PHASE <- UNINIT; ERR <- 0; SEQ <- IDLE`, every other
register `<- any`; a command in progress is abandoned without a response. The host's later events stay due. -/
def State.resetEvent (s : State) : State :=
  { s.anyContext.anyTransients with
    phase := .uninit
    err := false
    seq := SeqCode.idle
    dout := Memory.ofBytes (anyBytes s.draws 128 20)
    payload := []
    response := none
    rstIn := s.rstIn.tail }

/-- The host reads `DOUT[i]`, `i` in 0..19: the digest byte while `PHASE = DONE`; in any other phase it "reads as
`any`" (10_state.md R29), the same value until a command changes it (20_memory.md R57). -/
def State.readDout (s : State) (i : Nat) : Byte :=
  match s.phase with
  | .done => s.dout.read i
  | .uninit | .active => anyBits s.draws 8 (160 + i)

/-! Where the sequencer goes. -/

/-- After `ABSORB` without a full block, and after a compression with `RET = ABS`: the next byte if there is one; else
the end of `UPDATE`, or `LATCH` for `HASH` (45_sequencer.md R186). No row exists for another `OPL`. -/
def State.afterPayload (s : State) (here : BitVec 4) : Host.Outcome State Fault Refusal :=
  match s.payload with
  | _ :: _ => .next { s with seq := SeqCode.absorb }
  | [] =>
    match s.opl with
    | .update => .next s.finishUpdate
    | .hash => .next { s with seq := SeqCode.latch }
    | .init => .fault (.noTransition here .init)
    | .final => .fault (.noTransition here .final)

/-- `BUF[P] <- b; P <- P + 1` (43_final.md R163 to R165). -/
def State.padByte (s : State) (b : Byte) : State :=
  { s with buf := s.buf.write s.p.toNat b, p := s.p + 1#7 }

/-- After `PAD80` and `PADZ`: the length field at `P = 56`, the spill block's compression at `P = 64`, else another
zero byte (45_sequencer.md R186). -/
def State.afterPad (s : State) : State :=
  if s.p = 56#7 then { s with seq := SeqCode.padlen }
  else if s.p = 64#7 then { s with ret := .spill, seq := SeqCode.load }
  else { s with seq := SeqCode.padz }

/-- `IDLE` takes a command from the port: the first six rows of 45_sequencer.md R186, with the admission check of
60_exceptions.md R193. The response to the command before is gone once this one is in progress. -/
def State.accept (s : State) (c : Command) : State :=
  match Op.ofBits c.op with
  | .init => { s with opl := .init, payload := [], response := none, seq := SeqCode.uinit }
  | .hash => { s with opl := .hash, payload := c.payload, response := none, seq := SeqCode.uinit }
  | .update =>
    match s.phase.refusal with
    | some _ => { s with payload := [], response := none, seq := SeqCode.refuse }
    | none =>
      match c.payload with
      | [] => s.finishUpdate
      | _ :: _ => { s with opl := .update, payload := c.payload, response := none, seq := SeqCode.absorb }
  | .final =>
    match s.phase.refusal with
    | some _ => { s with payload := [], response := none, seq := SeqCode.refuse }
    | none => { s with opl := .final, payload := [], response := none, seq := SeqCode.latch }

/-- What the next step performs, and the state it performs it in: a whole command, taken from the port, where the
engine is idle and runs commands as atomic transitions; else the micro-operation `SEQ` names. -/
def State.fetch (s : State) : Token × State :=
  if s.seq = SeqCode.idle ∧ s.grain = .command then
    match s.pending with
    | [] => (.sequencer s.seq, s)
    | c :: rest => (.command c, { s with pending := rest })
  else (.sequencer s.seq, s)

end Sys2Proof.Machine
end

