-- ==== Sys2Proof/Machine/Compress.lean ====
section
/-! DEFINITION. The compression function (42_compress.md R130 to R141) and the meanings of `LOAD`, `ROUND` and
`COMBINE`. -/

namespace Sys2Proof.Machine

/-- The boolean functions `F0` to `F4` (R131). -/
def boolFn (k : Nat) (x y z : Word) : Word :=
  match k with
  | 0 => x ^^^ y ^^^ z
  | 1 => (x &&& y) ||| (~~~x &&& z)
  | 2 => (x ||| ~~~y) ^^^ z
  | 3 => (x &&& z) ||| (y &&& ~~~z)
  | _ => x ^^^ (y ||| ~~~z)

/-- One line's round (R138): `T = rol(A + F(B,C,D) + X + K, s) + E`, then
`(A, B, C, D, E) <- (E, T, B, rol(C, 10), D)`. -/
def roundLine (f : Nat) (k w : Word) (s : Nat) (l : Line) : Line :=
  { a := l.e
    b := rol (l.a + boolFn f l.b l.c l.d + w + k) s + l.e
    c := l.b
    d := rol l.c 10
    e := l.d }

/-- Round `j` of the left line: function `F[g]`, word `X[RL[j]]`, constant `KL[g]`, rotation `SL[j]` (R132, R138). -/
def roundLeft (x : Vector Word 16) (j : Nat) (l : Line) : Line :=
  roundLine (stage j) (Rom.kl (stage j)) (x.get (Rom.rl j).toFin) (Rom.sl j).toNat l

/-- Round `j` of the right line: function `F[4-g]`, word `X[RR[j]]`, constant `KR[g]`, rotation `SR[j]` (R132, R138). -/
def roundRight (x : Vector Word 16) (j : Nat) (r : Line) : Line :=
  roundLine (4 - stage j) (Rom.kr (stage j)) (x.get (Rom.rr j).toFin) (Rom.sr j).toNat r

/-- The left line after rounds 0 to `n-1` (R140). -/
def leftRounds (x : Vector Word 16) (l : Line) : Nat → Line
  | 0 => l
  | n + 1 => roundLeft x n (leftRounds x l n)

/-- The right line after rounds 0 to `n-1` (R140). -/
def rightRounds (x : Vector Word 16) (r : Line) : Nat → Line
  | 0 => r
  | n + 1 => roundRight x n (rightRounds x r n)

/-- The combination (R141): `H[i] <- H[(i+1) mod 5] + L[(i+2) mod 5] + R[(i+3) mod 5]`, all from the old `H`. -/
def combineLines (h : Chain) (l r : Line) : Chain :=
  { h0 := h.h1 + l.c + r.d
    h1 := h.h2 + l.d + r.e
    h2 := h.h3 + l.e + r.a
    h3 := h.h4 + l.a + r.b
    h4 := h.h0 + l.b + r.c }

/-- The chaining value after a compression of the block with these message words (R130): `LOAD`, 80 rounds of both
lines, `COMBINE`. -/
def compressWords (h : Chain) (x : Vector Word 16) : Chain :=
  combineLines h (leftRounds x (Line.ofChain h) 80) (rightRounds x (Line.ofChain h) 80)

/-- `Compress(h, b)` of a 64-byte block (R130). -/
def compress (h : Chain) (block : List Byte) : Chain :=
  compressWords h (messageWords (fun i => block.getD i Config.unlistedByte))

/-- The first `q` 64-byte blocks of a byte sequence, in order. -/
def splitBlocks : Nat → List Byte → List (List Byte)
  | 0, _ => []
  | q + 1, bytes => bytes.take 64 :: splitBlocks q (bytes.drop 64)

/-- The fold of `Compress` over the first `q` 64-byte blocks of a byte sequence, in order (41_update.md R112,
43_final.md R160). -/
def compressBlocks (q : Nat) (bytes : List Byte) (h : Chain) : Chain :=
  (splitBlocks q bytes).foldl compress h

/-- `LOAD` (R136): the message words from `BUF`, both lines from `H`, `J <- 0`; then `ROUND` (R186). -/
def execLoad (s : State) : Host.Outcome State Fault Refusal :=
  .next { s with
    x := messageWords s.buf.read
    left := Line.ofChain s.h
    right := Line.ofChain s.h
    j := 0#7
    seq := SeqCode.round }

/-- `ROUND` (R138): round `J` of both lines; `J <- J + 1` and again `ROUND`, or `COMBINE` after round 79 (R186). -/
def execRound (s : State) : Host.Outcome State Fault Refusal :=
  if s.j.toNat ≤ 79 then
    .next { s with
      left := roundLeft s.x s.j.toNat s.left
      right := roundRight s.x s.j.toNat s.right
      j := if s.j = 79#7 then s.j else s.j + 1#7
      seq := if s.j = 79#7 then SeqCode.combine else SeqCode.round }
  else .fault (.romIndex s.j)

/-- The compression is over: both lines are in `H` (R141), and the working registers "hold `any` value outside a
compression" (10_state.md R22). -/
def State.foldLines (s : State) : State :=
  { s with
    h := combineLines s.h s.left s.right
    left := Line.ofChain (anyChain s.draws 0)
    right := Line.ofChain (anyChain s.draws 5)
    draws := s.draws + 1 }

/-- `COMBINE` (R141): both lines into `H`; then where `RET` says (R186). -/
def execCombine (s : State) : Host.Outcome State Fault Refusal :=
  match s.ret with
  | .abs => s.foldLines.afterPayload SeqCode.combine
  | .spill => .next { s.foldLines with p := 0#7, seq := SeqCode.padz }
  | .last => .next { s.foldLines with seq := SeqCode.out }

end Sys2Proof.Machine
end

