-- ==== Sys2Proof/Machine/Final.lean ====
section
/-! DEFINITION. The meanings of `FINAL`, `LATCH`, `PAD80`, `PADZ`, `PADLEN` and `OUT` (43_final.md). -/

namespace Sys2Proof.Machine

/-- The effects of an admitted `FINAL` on `DOUT` (R160): the tail's one or two blocks are compressed from `H` and the
result is serialised. Each compression has made its draw for the working registers (10_state.md R22). -/
def State.computeDigest (s : State) : State :=
  let tail := padTail (s.buf.readBytes 0 s.count) s.total
  { s with
    dout := Memory.ofBytes (serialise (compressBlocks (tail.length / 64) tail s.h))
    draws := s.draws + tail.length / 64 }

/-- `FINAL` (R160): admitted with `PHASE = ACTIVE`; else the `ProtocolError` (R171). -/
def execFinal (s : State) : Host.Outcome State Fault Refusal :=
  .next (s.whenIdle (s.admitted s.computeDigest.finishFinal))

/-- `LATCH` (R161): `LEN <- (TOTAL << 3) mod 2^64`; `P <- TOTAL mod 64`; then `PAD80`. -/
def execLatch (s : State) : Host.Outcome State Fault Refusal :=
  .next { s with len := bitLength s.total, p := padStart s.total, seq := SeqCode.pad80 }

/-- `PAD80` (R163): `BUF[P] <- 0x80`; `P <- P + 1`. -/
def execPad80 (s : State) : Host.Outcome State Fault Refusal :=
  if s.p.toNat ≤ 63 then .next (s.padByte 0x80#8).afterPad else .fault (.bufIndex s.p)

/-- `PADZ` (R164): `BUF[P] <- 0x00`; `P <- P + 1`. -/
def execPadz (s : State) : Host.Outcome State Fault Refusal :=
  if s.p.toNat ≤ 63 then .next (s.padByte 0x00#8).afterPad else .fault (.bufIndex s.p)

/-- `PADLEN` (R165): with `k = P - 56`, `BUF[P] <- byte(LEN, k)`; `P <- P + 1`; the last block's compression once
`P = 64` (R186). -/
def execPadlen (s : State) : Host.Outcome State Fault Refusal :=
  if 56 ≤ s.p.toNat ∧ s.p.toNat ≤ 63 then
    let t := s.padByte (byteOf s.len (s.p.toNat - 56))
    if t.p = 64#7 then .next { t with ret := .last, seq := SeqCode.load }
    else .next { t with seq := SeqCode.padlen }
  else .fault (.lengthIndex s.p)

/-- `OUT` (R168): `H` to `DOUT`, all twenty bytes; then the end of the command (R169, R186). -/
def execOut (s : State) : Host.Outcome State Fault Refusal :=
  .next { s with dout := Memory.ofBytes (serialise s.h) }.finishFinal

end Sys2Proof.Machine
end

