-- ==== Sys2Proof/Machine/Update.lean ====
section
/-! DEFINITION. The meanings of `UPDATE` and `ABSORB` (41_update.md). -/

namespace Sys2Proof.Machine

/-- The effects of an admitted `UPDATE data`, without its response (R112): every full block of the pending bytes is
compressed, the remainder is buffered from index 0, and `ilen` is counted. Each compression has made its draw for the
working registers (10_state.md R22), which the end of the command leaves open anyway. -/
def State.appendBytes (s : State) (data : List Byte) : State :=
  let pendingBytes := s.buf.readBytes 0 s.count ++ data
  let q := pendingBytes.length / 64
  { s with
    h := compressBlocks q pendingBytes s.h
    buf := s.buf.writeBytes 0 (pendingBytes.drop (64 * q))
    total := addTotal s.total data.length
    draws := s.draws + q }

/-- `UPDATE data` (R112): admitted with `PHASE = ACTIVE`; else the `ProtocolError`, whatever the length (R118). -/
def execUpdate (data : List Byte) (s : State) : Host.Outcome State Fault Refusal :=
  .next (s.whenIdle (s.admitted (s.appendBytes data).finishUpdate))

/-- `ABSORB` (R114): the next payload byte to `BUF[n]`, counted; a full block is compressed before the next byte
(R186). With no byte there yet the engine waits (70_reset_and_hazards.md R229). -/
def execAbsorb (s : State) : Host.Outcome State Fault Refusal :=
  match s.payload with
  | [] => .next s
  | b :: rest =>
    let t : State := { s with
      buf := s.buf.write s.count b
      total := addTotal s.total 1
      payload := rest }
    if s.count = 63 then .next { t with ret := .abs, seq := SeqCode.load }
    else t.afterPayload SeqCode.absorb

end Sys2Proof.Machine
end

