-- ==== Sys2Proof/Machine/Hash.lean ====
section
/-! DEFINITION. The meaning of `HASH` (44_hash.md). -/

namespace Sys2Proof.Machine

/-- `HASH data` (R180): the effects of `INIT`, of `UPDATE data` and of `FINAL`, with one response at the end; admitted
in every phase, on the engine's one context (R181). -/
def execHash (data : List Byte) (s : State) : Host.Outcome State Fault Refusal :=
  .next (s.whenIdle (s.createContext.appendBytes data).computeDigest.finishFinal)

end Sys2Proof.Machine
end

