-- ==== Sys2Proof/Machine/Init.lean ====
section
/-! DEFINITION. The meanings of `INIT` and `UINIT` (40_init.md). -/

namespace Sys2Proof.Machine

/-- `INIT` (R100): a new context, `PHASE <- ACTIVE`, `respond(OK)`; admitted in every phase. -/
def execInit (s : State) : Host.Outcome State Fault Refusal :=
  .next (s.whenIdle s.createContext.finishInit)

/-- `UINIT` (R101) and its rows of 45_sequencer.md R186: the context, `PHASE <- ACTIVE`, then the end of `INIT`, or the
first payload byte of `HASH`, or `LATCH` where it has none. -/
def execUinit (s : State) : Host.Outcome State Fault Refusal :=
  match s.opl with
  | .init => .next s.createContext.finishInit
  | .hash =>
    match s.payload with
    | _ :: _ => .next { s.createContext with seq := SeqCode.absorb }
    | [] => .next { s.createContext with seq := SeqCode.latch }
  | .update => .fault (.noTransition SeqCode.uinit .update)
  | .final => .fault (.noTransition SeqCode.uinit .final)

end Sys2Proof.Machine
end

