-- ==== Sys2Proof/Machine/Sequencer.lean ====
section
/-! DEFINITION. The meanings of `IDLE` and `REFUSE` (60_exceptions.md R193 and R194, 45_sequencer.md R186). -/

namespace Sys2Proof.Machine

/-- `IDLE`: takes the next command the host offers and checks its admission (R193); with none offered it waits. -/
def execIdle (s : State) : Host.Outcome State Fault Refusal :=
  match s.pending with
  | [] => .next s
  | c :: rest => .next ({ s with pending := rest }.accept c)

/-- `REFUSE` (R194): takes the `ProtocolError` of the phase the command arrived in. -/
def execRefuse (s : State) : Host.Outcome State Fault Refusal :=
  .next s.refuse

end Sys2Proof.Machine
end

