-- ==== Sys2Proof/Machine/Dispatch.lean ====
section
/-! DEFINITION. One arm per instruction, each one call of its meaning. -/

namespace Sys2Proof.Machine

def exec (i : Instr) (s : State) : Host.Outcome State Fault Refusal :=
  match i with
  | .init => Sys2Proof.Machine.execInit s
  | .update data => Sys2Proof.Machine.execUpdate data s
  | .final => Sys2Proof.Machine.execFinal s
  | .hash data => Sys2Proof.Machine.execHash data s
  | .idle => Sys2Proof.Machine.execIdle s
  | .uinit => Sys2Proof.Machine.execUinit s
  | .absorb => Sys2Proof.Machine.execAbsorb s
  | .load => Sys2Proof.Machine.execLoad s
  | .round => Sys2Proof.Machine.execRound s
  | .combine => Sys2Proof.Machine.execCombine s
  | .latch => Sys2Proof.Machine.execLatch s
  | .pad80 => Sys2Proof.Machine.execPad80 s
  | .padz => Sys2Proof.Machine.execPadz s
  | .padlen => Sys2Proof.Machine.execPadlen s
  | .out => Sys2Proof.Machine.execOut s
  | .refuse => Sys2Proof.Machine.execRefuse s

end Sys2Proof.Machine
end

