-- ==== Sys2Proof/Machine/Step.lean ====
section
/-! DEFINITION. One step of the machine: the host's `rst` if it comes now, else the instruction the fetch gives. -/

namespace Sys2Proof.Machine

/-- The engine's own step: fetch, decode, execute. -/
def stepEngine (s : State) : Host.Outcome State Fault Refusal :=
  match decode s.fetch.1 with
  | .ok i => exec i s.fetch.2
  | .error (.unusedSeq code) => .fault (.unusedSeq code)

/-- One step: the reset event when the host fires it (R220: "Reset may occur at any time"), else the engine's step,
with the host's next reset one step nearer. Any number of resets can come in a run. -/
def step (s : State) : Host.Outcome State Fault Refusal :=
  match s.rstIn with
  | 0 :: _ => .next s.resetEvent
  | (k + 1) :: later => stepEngine { s with rstIn := k :: later }
  | [] => stepEngine s

/-- The sequencer standing at a micro-operation: `SEQ` holds its code, and the control register that belongs to that
place (10_state.md R33, R34) holds a value with which the sequencer stands there: `OPL` in `UINIT` and `ABSORB`, `J` in
`ROUND`, `RET` in `COMBINE`, `P` in the padding states (45_sequencer.md R186). Log entry 8. -/
def State.standingAt (s : State) (code : BitVec 4) : State :=
  let t : State := { s with seq := code }
  if code = SeqCode.uinit then { t with opl := .init }
  else if code = SeqCode.absorb then { t with opl := .update }
  else if code = SeqCode.round then { t with j := 0#7 }
  else if code = SeqCode.combine then { t with ret := .last }
  else if code = SeqCode.pad80 then { t with p := 0#7 }
  else if code = SeqCode.padz then { t with p := 0#7 }
  else if code = SeqCode.padlen then { t with p := 56#7 }
  else t

/-- The state with the instruction of an opcode table word where the next step fetches it: a command at the head of
the host's port with the engine idle and running commands as atomic transitions, or the sequencer standing at a
micro-operation; no reset pending. The state itself where the table has no such word. Log entry 8. -/
def State.withFetchWord (s : State) (nbits w : Nat) : State :=
  match tableToken nbits w with
  | none => s
  | some (.command c) =>
    { s with seq := SeqCode.idle, grain := .command, pending := c :: s.pending, rstIn := [] }
  | some (.sequencer code) => { s.standingAt code with grain := .sequencer, rstIn := [] }

end Sys2Proof.Machine
end

