-- ==== Sys2Proof/WellFormed.lean ====
section
/-! DEFINITION. What a well-formed token and a well-formed instruction are (30_encoding.md R81, R82, R88). -/

namespace Sys2Proof

/-- A command has the format its opcode decides: `op[0] = 0` means no payload (R82). -/
def Command.wellFormed (c : Command) : Bool :=
  c.op.getLsbD 0 || c.payload.isEmpty

/-- A command of format `C0` carries no payload; a sequencer code is one of 0x0..0xB (R88). -/
def Token.wellFormed : Token → Bool
  | .command c => c.wellFormed
  | .sequencer code => decide (code.toNat ≤ 0xB)

/-- An instruction is well formed if its token is. Its one operand, the payload, is a list of bytes of any
length (R83), so every instruction is. -/
def Instr.wellFormed (i : Instr) : Bool :=
  (encode i).wellFormed

end Sys2Proof
end

