-- ==== Sys2Proof/Safety.lean ====
section
/-! DEFINITION. The terms claims are stated in: the machine's invariant, the named start conditions of
70_reset_and_hazards.md R236, the digest of a message (43_final.md R172), and the step counts of 45_sequencer.md R187. -/

namespace Sys2Proof

/-- A command with a payload: what `ABSORB` and a return to it work for (45_sequencer.md R186). -/
def Op.hasPayload : Op → Bool
  | .update => true
  | .hash => true
  | .init => false
  | .final => false

/-- The instruction is a host command (30_encoding.md R84), not a row of the sequencer. -/
def Instr.isCommand : Instr → Bool
  | .init => true
  | .update _ => true
  | .final => true
  | .hash _ => true
  | .idle => false
  | .uinit => false
  | .absorb => false
  | .load => false
  | .round => false
  | .combine => false
  | .latch => false
  | .pad80 => false
  | .padz => false
  | .padlen => false
  | .out => false
  | .refuse => false

end Sys2Proof

namespace Sys2Proof.Machine

/-! The digest as a function of the message, with no machine in it. -/

/-- `M ++ [0x80] ++ zeros((55 - m) mod 64) ++ le64(8m mod 2^64)` (R172). -/
def padMessage (m : List Byte) : List Byte :=
  m ++ [0x80#8] ++ zeros ((119 - m.length % 64) % 64) ++ le64 (BitVec.ofNat 64 (8 * m.length))

/-- The RIPEMD-160 digest: "the fold of `Compress` from `IV` over the 64-byte blocks" of the padded message, serialised
(R172, 20_memory.md R53). -/
def ripemd160 (m : List Byte) : List Byte :=
  serialise (compressBlocks ((padMessage m).length / 64) (padMessage m) Rom.iv)

/-! The named conditions of R236. -/

/-- The context holds the message prefix `m` (10_state.md R38): `H` after its full blocks, `BUF[0..n-1]` its last
`n = m mod 64` bytes, `TOTAL` its length mod 2^64. -/
structure State.Streaming (s : State) (m : List Byte) : Prop where
  idle : s.seq = SeqCode.idle
  active : s.phase = .active
  chain : s.h = compressBlocks (m.length / 64) m Rom.iv
  buffered : s.buf.readBytes 0 (m.length % 64) = m.drop (64 * (m.length / 64))
  counted : s.total = BitVec.ofNat 64 m.length

/-- `Finished(d)`: the digest `d` is in `DOUT` and valid (R236). -/
structure State.Finished (s : State) (d : List Byte) : Prop where
  idle : s.seq = SeqCode.idle
  done : s.phase = .done
  digest : s.digest = d

/-! Frames and views. -/

/-- The five words in order, so that a claim can index them as the spec does. -/
def Chain.words (h : Chain) : List Word :=
  [h.h0, h.h1, h.h2, h.h3, h.h4]

/-- A line's registers numbered `L[0..4]` or `R[0..4]` (42_compress.md R141). -/
def Line.words (l : Line) : List Word :=
  [l.a, l.b, l.c, l.d, l.e]

/-- `s` with the transient registers (10_state.md R37(a)) and the draw counter of `t`: all that the end of a command
leaves open. -/
def State.withTransientsOf (s t : State) : State :=
  { s with
    left := t.left
    right := t.right
    x := t.x
    len := t.len
    p := t.p
    j := t.j
    opl := t.opl
    ret := t.ret
    draws := t.draws }

/-- `UPDATE` commands one after the other, one for each chunk (41_update.md R117). -/
def execUpdates : List (List Byte) → State → Host.Outcome State Fault Refusal
  | [], s => .next s
  | d :: ds, s =>
    match exec (.update d) s with
    | .next t => execUpdates ds t
    | .fault r => .fault r
    | .refused r => .refused r

/-- The changes of `PHASE` an instruction makes (10_state.md R30): to `ACTIVE` by the creation of a context, and to
`DONE` by what delivers a digest, `FINAL` only from `ACTIVE`. -/
def lifecycleChange (i : Instr) (before after : Phase) : Prop :=
  ((i = .init ∨ i = .uinit) ∧ after = .active) ∨
  (i = .final ∧ before = .active ∧ after = .done) ∨
  (i = .out ∧ after = .done) ∨
  (∃ data, i = .hash data ∧ after = .done)

/-- Commands one after the other, each on the state the one before left. -/
def execCommands : List Instr → State → Host.Outcome State Fault Refusal
  | [], s => .next s
  | i :: is, s =>
    match exec i s with
    | .next t => execCommands is t
    | .fault r => .fault r
    | .refused r => .refused r

/-- The legal command sequences from reset: the words of `( INIT+ UPDATE* FINAL | HASH | INIT+ UPDATE* )*`
(70_reset_and_hazards.md R222). -/
inductive LegalCommands : List Instr → Prop where
  | empty : LegalCommands []
  | finished (k : Nat) (chunks : List (List Byte)) (rest : List Instr) : LegalCommands rest →
      LegalCommands (List.replicate (k + 1) .init ++ chunks.map .update ++ .final :: rest)
  | oneShot (data : List Byte) (rest : List Instr) : LegalCommands rest → LegalCommands (.hash data :: rest)
  | unfinished (k : Nat) (chunks : List (List Byte)) (rest : List Instr) : LegalCommands rest →
      LegalCommands (List.replicate (k + 1) .init ++ chunks.map .update ++ rest)

/-! The invariant. -/

/-- What holds of every state a run reaches: the byte spaces are canonical, and the control registers are in a
combination for which 45_sequencer.md R186 has a row. -/
structure State.Inv (s : State) : Prop where
  bufCanonical : s.buf.wf 64 = true
  doutCanonical : s.dout.wf 20 = true
  seqUsed : s.seq.toNat ≤ 0xB
  commandActive : s.seq ≠ SeqCode.idle → s.seq ≠ SeqCode.uinit → s.seq ≠ SeqCode.refuse → s.phase = .active
  uinitOp : s.seq = SeqCode.uinit → s.opl = .init ∨ s.opl = .hash
  absorbOp : s.seq = SeqCode.absorb → s.opl.hasPayload = true
  returnOp : s.seq = SeqCode.load ∨ s.seq = SeqCode.round ∨ s.seq = SeqCode.combine → s.ret = .abs →
    s.opl.hasPayload = true
  roundIndex : s.seq = SeqCode.round → s.j.toNat ≤ 79
  padIndex : s.seq = SeqCode.pad80 ∨ s.seq = SeqCode.padz → s.p.toNat ≤ 63
  padzIndex : s.seq = SeqCode.padz → s.p ≠ 56#7
  lengthIndex : s.seq = SeqCode.padlen → 56 ≤ s.p.toNat ∧ s.p.toNat ≤ 63
  refusePhase : s.seq = SeqCode.refuse → s.phase ≠ .active

/-! What a later command can depend on. -/

/-- Two idle engines no host can tell apart by commands: the same `PHASE` and `ERR`; while `ACTIVE` the same `H`, `TOTAL`
and valid `BUF` bytes; while `DONE` the same digest. Everything else is `any` (10_state.md R37). -/
structure State.SameContext (s t : State) : Prop where
  idleLeft : s.seq = SeqCode.idle
  idleRight : t.seq = SeqCode.idle
  phase : s.phase = t.phase
  err : s.err = t.err
  chain : s.phase = .active → s.h = t.h
  total : s.phase = .active → s.total = t.total
  buffered : s.phase = .active → s.buf.readBytes 0 s.count = t.buf.readBytes 0 t.count
  digest : s.phase = .done → s.digest = t.digest

/-! The step counts of R187, the `IDLE` step that accepts the command not counted. -/

/-- `UPDATE`: `ilen + 82 q`, `q = (n0 + ilen) div 64`. -/
def updateSteps (n0 ilen : Nat) : Nat :=
  ilen + 82 * ((n0 + ilen) / 64)

/-- `FINAL`: `148 - n` for `n <= 55`, `294 - n` for `n >= 56`. -/
def finalSteps (n : Nat) : Nat :=
  if n ≤ 55 then 148 - n else 294 - n

/-- `HASH`: 1, and the steps of `UPDATE` from `n0 = 0`, and those of `FINAL` with `n = ilen mod 64`. -/
def hashSteps (ilen : Nat) : Nat :=
  1 + updateSteps 0 ilen + finalSteps (ilen % 64)

end Sys2Proof.Machine
end

