-- ==== Sys2Proof/Certificates/Slice0/Obligations.lean ====
section
/-! DEFINITION. The statements for the provers. Rule numbers are those of spec/. A frame is written as an equation: the
next state is the old one but for the fields named. `left` and `right`, the working registers, are left open by the frames of
`COMBINE`, `ABSORB`, `LATCH` and the padding micro-operations, as R22 leaves them outside a compression; what this model does
there is one statement of its own. The frames of `UINIT` and `IDLE` keep them, and name that as the model's choice. -/

open Sys2Proof Sys2Proof.Machine

/-! ## Encoding -/

/-- R84 and R88 with R82: every instruction is well formed and is read back from its token, and a well-formed token
stands for exactly one instruction. -/
def Obligations.EncodingIsExact : Prop :=
  (∀ i : Instr, i.wellFormed = true ∧ decode (encode i) = .ok i) ∧
  (∀ (t : Token) (i : Instr), t.wellFormed = true → (decode t = .ok i ↔ encode i = t))

/-- R84 and R88: the sixteen words of the opcode table, written out. -/
def Obligations.TableWordsDecode : Prop :=
  decodeTableWord 2 0b00 = some .init ∧ decodeTableWord 2 0b01 = some (.update []) ∧
  decodeTableWord 2 0b10 = some .final ∧ decodeTableWord 2 0b11 = some (.hash []) ∧
  decodeTableWord 4 0x0 = some .idle ∧ decodeTableWord 4 0x1 = some .uinit ∧
  decodeTableWord 4 0x2 = some .absorb ∧ decodeTableWord 4 0x3 = some .load ∧
  decodeTableWord 4 0x4 = some .round ∧ decodeTableWord 4 0x5 = some .combine ∧
  decodeTableWord 4 0x6 = some .latch ∧ decodeTableWord 4 0x7 = some .pad80 ∧
  decodeTableWord 4 0x8 = some .padz ∧ decodeTableWord 4 0x9 = some .padlen ∧
  decodeTableWord 4 0xA = some .out ∧ decodeTableWord 4 0xB = some .refuse

/-- R86: no command encoding is illegal, and sequencer codes 0xC to 0xF are unused. -/
def Obligations.EveryCommandDecodes : Prop :=
  (∀ c : Command, ∃ i : Instr, decode (.command c) = .ok i ∧ i.isCommand = true) ∧
  (∀ code : BitVec 4, 0xC ≤ code.toNat → decode (.sequencer code) = .error (.unusedSeq code))

/-! ## The step, reset, and the port -/

/-- A step runs the decoded instruction: with no reset due, the step is `exec` of the instruction the fetched token
decodes to, in the state the fetch leaves. The token is the command at the head of the port, taken off it, where the
engine is idle and runs commands as atomic transitions; else the code in `SEQ`. A reset due later only comes nearer. -/
def Obligations.StepRunsDecodedInstruction : Prop :=
  (∀ (s : State) (i : Instr), s.rstIn = [] → decode s.fetch.1 = .ok i → step s = exec i s.fetch.2) ∧
  (∀ (s : State) (k : Nat) (later : List Nat) (i : Instr), s.rstIn = (k + 1) :: later →
    decode ({ s with rstIn := k :: later } : State).fetch.1 = .ok i →
      step s = exec i ({ s with rstIn := k :: later } : State).fetch.2) ∧
  (∀ (s : State) (c : Command) (rest : List Command),
    s.seq = SeqCode.idle → s.grain = .command → s.pending = c :: rest →
      s.fetch = (.command c, { s with pending := rest })) ∧
  (∀ s : State, s.seq ≠ SeqCode.idle ∨ s.grain = .sequencer ∨ s.pending = [] →
    s.fetch = (.sequencer s.seq, s))

/-- 93_implementation_defined.md U11: at a sequencer code no rule enters, the step stops by name. -/
def Obligations.StepStopsAtUnusedCode : Prop :=
  ∀ s : State, s.rstIn = [] → 0xC ≤ s.seq.toNat → step s = .fault (.unusedSeq s.seq)

/-- R40: what the spec states of the state after reset. -/
def Obligations.ResetIsUninitialised : Prop :=
  State.reset.phase = .uninit ∧ State.reset.err = false ∧ State.reset.seq = SeqCode.idle ∧
  State.reset.status = 0b000#3

/-- R220: the reset event comes first, in every state, and any number of times in a run; it abandons the command in
progress without a response. The model's choices: it takes nothing from the host's port (log entry 4), the host's later
events stay due (log entry 5), the level is kept (log entry 6), and an idle engine's old response is gone from the port
too (log entry 13). -/
def Obligations.ResetEventInterruptsAnything : Prop :=
  ∀ (s : State) (later : List Nat), s.rstIn = 0 :: later →
    ∃ t, step s = .next t ∧ t.phase = .uninit ∧ t.err = false ∧ t.seq = SeqCode.idle ∧ t.status = 0b000#3 ∧
      t.response = none ∧ t.payload = [] ∧ t.pending = s.pending ∧ t.rstIn = later ∧ t.grain = s.grain

/-- R31: `ERR`, once set, is cleared only by the reset event. -/
def Obligations.ErrIsSticky : Prop :=
  ∀ s t : State, s.rstIn.head? ≠ some 0 → s.err = true → step s = .next t → t.err = true

/-- R31: `ERR` "affects the result of no command": run from two states that differ in `ERR` alone, every instruction
stops alike or gives states that differ at most in `ERR`. -/
def Obligations.ErrAffectsNoInstruction : Prop :=
  ∀ (i : Instr) (s : State) (e : Bool),
    (∀ t, exec i s = .next t → ∃ e', exec i { s with err := e } = .next { t with err := e' }) ∧
    (∀ r, exec i s = .fault r → exec i { s with err := e } = .fault r) ∧
    (∀ r, exec i s ≠ .refused r)

/-- R70(a) and R228: a step takes nothing from the port, or, with the engine idle, the command at its head. -/
def Obligations.CommandsAreTakenInOrder : Prop :=
  ∀ s t : State, step s = .next t →
    t.pending = s.pending ∨ (s.seq = SeqCode.idle ∧ ∃ c, s.pending = c :: t.pending)

/-- R228: a command offered while `SEQ` is not `IDLE` is not accepted; nothing happens. -/
def Obligations.BusyEngineTakesNoCommand : Prop :=
  ∀ (i : Instr) (s : State), i.isCommand = true → s.seq ≠ SeqCode.idle → exec i s = .next s

/-- R32: the layout of `STATUS`, with the codes R30 gives the phases. -/
def Obligations.StatusLayout : Prop :=
  ∀ s : State,
    (s.phase = .uninit → s.status.extractLsb' 0 2 = 0b00#2) ∧
    (s.phase = .active → s.status.extractLsb' 0 2 = 0b01#2) ∧
    (s.phase = .done → s.status.extractLsb' 0 2 = 0b10#2) ∧
    s.status.getLsbD 2 = s.err

/-! ## INIT and UINIT -/

/-- R100: `INIT` in every phase. -/
def Obligations.InitCreatesFreshContext : Prop :=
  ∀ s : State, s.seq = SeqCode.idle →
    ∃ t, exec .init s = .next t ∧
      t.h = ⟨0x67452301#32, 0xEFCDAB89#32, 0x98BADCFE#32, 0x10325476#32, 0xC3D2E1F0#32⟩ ∧
      t.total = 0#64 ∧ t.phase = .active ∧ t.response = some ⟨.ok, none⟩ ∧ t.count = 0 ∧
      t = { s.withTransientsOf t with
        h := t.h, total := t.total, phase := t.phase, response := t.response, payload := [] }

/-- R102: after `INIT` nothing of the state before matters but `ERR`: two engines with the same `ERR` are then in
contexts no later command tells apart. -/
def Obligations.InitForgetsTheContext : Prop :=
  ∀ s u : State, s.seq = SeqCode.idle → u.seq = SeqCode.idle → s.err = u.err →
    ∃ t v, exec .init s = .next t ∧ exec .init u = .next v ∧ t.SameContext v ∧ t.response = v.response

/-- R101 and its rows of R186: `UINIT` loads the context in one step and goes on as `OPL` and the payload say. That it keeps
the working registers for `HASH`, which R22 leaves open outside a compression, is the model's choice, log entry 9. -/
def Obligations.UinitLoadsTheContext : Prop :=
  (∀ s : State, s.opl = .init →
    ∃ t, exec .uinit s = .next t ∧
      t.h = ⟨0x67452301#32, 0xEFCDAB89#32, 0x98BADCFE#32, 0x10325476#32, 0xC3D2E1F0#32⟩ ∧
      t.total = 0#64 ∧ t.phase = .active ∧ t.response = some ⟨.ok, none⟩ ∧ t.seq = SeqCode.idle ∧
      t = { s.withTransientsOf t with
        h := t.h, total := t.total, phase := t.phase, response := t.response, seq := t.seq, payload := [] }) ∧
  (∀ s : State, s.opl = .hash →
    ∃ t, exec .uinit s = .next t ∧
      t.h = ⟨0x67452301#32, 0xEFCDAB89#32, 0x98BADCFE#32, 0x10325476#32, 0xC3D2E1F0#32⟩ ∧
      t.total = 0#64 ∧ t.phase = .active ∧
      t.seq = (if s.payload = [] then SeqCode.latch else SeqCode.absorb) ∧
      t = { s with h := t.h, total := t.total, phase := t.phase, seq := t.seq })

/-! ## UPDATE and ABSORB -/

/-- R112: an admitted `UPDATE`. The pending bytes are the buffered ones and the payload; each full block is compressed in
order, the remainder is buffered from index 0, and the payload's length is counted modulo 2^64. In another phase it is
refused. -/
def Obligations.UpdateAppendsThePayload : Prop :=
  (∀ (s : State) (data : List Byte) (code : RspCode), s.seq = SeqCode.idle → s.phase.refusal = some code →
    exec (.update data) s = .next (s.protocolError code)) ∧
  ∀ (s : State) (data : List Byte), s.seq = SeqCode.idle → s.phase = .active → s.buf.wf 64 = true →
    let S := s.buf.readBytes 0 s.count ++ data
    ∃ t, exec (.update data) s = .next t ∧
      t.h = (List.range (S.length / 64)).foldl (fun h k => compress h ((S.drop (64 * k)).take 64)) s.h ∧
      (∀ i, i < S.length % 64 → S[64 * (S.length / 64) + i]? = some (t.buf.read i)) ∧
      t.total = s.total + BitVec.ofNat 64 data.length ∧ t.count = S.length % 64 ∧
      t.response = some ⟨.ok, none⟩ ∧
      t = { s.withTransientsOf t with
        h := t.h, buf := t.buf, total := t.total, response := t.response, payload := [] }

/-- R118: a zero-length `UPDATE` with `PHASE = ACTIVE` changes no valid part of the context, so that `FINAL` after it
gives the digest it gives without it; in another phase it is refused like any `UPDATE`. -/
def Obligations.UpdateOfNothingIsNoOp : Prop :=
  (∀ s : State, s.seq = SeqCode.idle → s.phase = .active → s.buf.wf 64 = true →
    ∃ t u v, exec (.update []) s = .next t ∧ s.SameContext t ∧ t.dout = s.dout ∧ t.response = some ⟨.ok, none⟩ ∧
      exec .final s = .next u ∧ exec .final t = .next v ∧ v.digest = u.digest) ∧
  (∀ (s : State) (code : RspCode), s.seq = SeqCode.idle → s.phase.refusal = some code →
    exec (.update []) s = .next (s.protocolError code))

/-- R117: `UPDATE` is split anywhere, into any number of chunks, empty ones too, with the same `H`, `TOTAL` and valid
`BUF` bytes. -/
def Obligations.UpdateIsChunkInvariant : Prop :=
  ∀ (chunks : List (List Byte)) (s : State), s.seq = SeqCode.idle → s.phase = .active → s.buf.wf 64 = true →
    ∃ t u, execUpdates chunks s = .next t ∧ exec (.update chunks.flatten) s = .next u ∧
      t.h = u.h ∧ t.total = u.total ∧ t.buf.readBytes 0 t.count = u.buf.readBytes 0 u.count

/-- R111: the counter addition on halves, with the carry between them and the last carry dropped. -/
def Obligations.CounterAddsOnHalves : Prop :=
  ∀ (s t : State) (ilen : Nat), t.total = addTotal s.total ilen →
    let a := ilen % 2 ^ 64
    let sumLo := s.totalLo.toNat + a % 2 ^ 32
    t.totalLo.toNat = sumLo % 2 ^ 32 ∧
    t.totalHi.toNat = (s.totalHi.toNat + a / 2 ^ 32 + sumLo / 2 ^ 32) % 2 ^ 32

/-- R114 and its rows of R186: `ABSORB` with a payload byte. The byte goes to `BUF[n]` and is counted; a full block goes
to `LOAD`; else the next byte, or the end of `UPDATE`, or `LATCH` for `HASH`. -/
def Obligations.AbsorbTakesOneByte : Prop :=
  ∀ (s : State) (b : Byte) (rest : List Byte), s.payload = b :: rest → s.buf.wf 64 = true →
    s.opl.hasPayload = true →
    ∃ t, exec .absorb s = .next t ∧ t.total = s.total + 1#64 ∧
      (s.count = 63 → t.seq = SeqCode.load ∧ t.ret = .abs ∧ t.payload = rest ∧
        t.buf.read 63 = b ∧ (∀ a, a ≠ 63 → t.buf.read a = s.buf.read a) ∧
        t = { s with
          total := t.total, buf := t.buf, payload := rest, ret := .abs, seq := SeqCode.load,
          left := t.left, right := t.right }) ∧
      (s.count ≠ 63 → rest ≠ [] → t.buf.read s.count = b ∧ (∀ a, a ≠ s.count → t.buf.read a = s.buf.read a) ∧
        t = { s with
          total := t.total, buf := t.buf, payload := rest, seq := SeqCode.absorb,
          left := t.left, right := t.right }) ∧
      (s.count ≠ 63 → rest = [] → s.opl = .hash →
        t.buf.read s.count = b ∧ (∀ a, a ≠ s.count → t.buf.read a = s.buf.read a) ∧
        t = { s with
          total := t.total, buf := t.buf, payload := [], seq := SeqCode.latch,
          left := t.left, right := t.right }) ∧
      (s.count ≠ 63 → rest = [] → s.opl = .update →
        t.buf.read s.count = b ∧ (∀ a, a < s.count → t.buf.read a = s.buf.read a) ∧
        t.response = some ⟨.ok, none⟩ ∧
        t = { s.withTransientsOf t with
          total := t.total, buf := t.buf, payload := [], response := t.response, seq := SeqCode.idle })

/-- R229: with no payload byte there, the engine waits in `ABSORB`. -/
def Obligations.AbsorbWaitsForAByte : Prop :=
  ∀ s : State, s.payload = [] → exec .absorb s = .next s

/-! ## LOAD, ROUND, COMBINE and the compression -/

/-- R136 and R51: `LOAD` assembles the sixteen words, least significant byte first, copies `H` to both lines and starts
at round 0. -/
def Obligations.LoadAssemblesWords : Prop :=
  ∀ s : State, ∃ t, exec .load s = .next t ∧
    (∀ i : Fin 16, (t.x.get i).toNat =
      (s.buf.read (4 * i)).toNat + 2 ^ 8 * (s.buf.read (4 * i + 1)).toNat +
      2 ^ 16 * (s.buf.read (4 * i + 2)).toNat + 2 ^ 24 * (s.buf.read (4 * i + 3)).toNat) ∧
    t.left.words = s.h.words ∧ t.right.words = s.h.words ∧ t.j = 0#7 ∧ t.seq = SeqCode.round ∧
    t = { s with x := t.x, left := t.left, right := t.right, j := t.j, seq := t.seq }

/-- R52: with the length field at `BUF[56..63]`, the last two message words are its halves. -/
def Obligations.LengthFieldIsTheLastTwoWords : Prop :=
  ∀ (s : State) (len : BitVec 64), (∀ k, k < 8 → s.buf.read (56 + k) = len.extractLsb' (8 * k) 8) →
    ∃ t, exec .load s = .next t ∧
      t.x.get 14 = len.extractLsb' 0 32 ∧ t.x.get 15 = len.extractLsb' 32 32

/-- R138 with R132: one round of both lines, rotations written as rotations; `J` counts on, and after round 79 the
sequencer leaves `ROUND`. -/
def Obligations.RoundStepsBothLines : Prop :=
  ∀ s : State, s.j.toNat ≤ 79 →
    let j := s.j.toNat
    let g := j / 16
    let l := s.left
    let r := s.right
    ∃ t, exec .round s = .next t ∧
      t.left = ⟨l.e,
        (l.a + boolFn g l.b l.c l.d + s.x.get (Rom.rl j).toFin + Rom.kl g).rotateLeft (Rom.sl j).toNat + l.e,
        l.b, l.c.rotateLeft 10, l.d⟩ ∧
      t.right = ⟨r.e,
        (r.a + boolFn (4 - g) r.b r.c r.d + s.x.get (Rom.rr j).toFin + Rom.kr g).rotateLeft (Rom.sr j).toNat + r.e,
        r.b, r.c.rotateLeft 10, r.d⟩ ∧
      (j < 79 → t.j.toNat = j + 1 ∧ t.seq = SeqCode.round) ∧
      (j = 79 → t.j = s.j ∧ t.seq = SeqCode.combine) ∧
      t = { s with left := t.left, right := t.right, j := t.j, seq := t.seq }

/-- R131: the five boolean functions, bit by bit, as choices. -/
def Obligations.BooleanFunctionsByBit : Prop :=
  ∀ (x y z : Word) (n : Nat), n < 32 →
    let xb := x.getLsbD n
    let yb := y.getLsbD n
    let zb := z.getLsbD n
    (boolFn 0 x y z).getLsbD n = (xb ^^ yb ^^ zb) ∧
    (boolFn 1 x y z).getLsbD n = (if xb then yb else zb) ∧
    (boolFn 2 x y z).getLsbD n = (if xb = false ∧ yb = true then zb else !zb) ∧
    (boolFn 3 x y z).getLsbD n = (if zb then xb else yb) ∧
    (boolFn 4 x y z).getLsbD n = (if yb = false ∧ zb = true then xb else !xb)

/-- R61 to R67: every entry of the seven ROM tables; and the checks R64 to R67 print beside them: each stage of a word
order is a permutation of 0 to 15, and every rotation amount is in 5 to 15. -/
def Obligations.RomHoldsTheTables : Prop :=
  Rom.iv.words = [0x67452301#32, 0xEFCDAB89#32, 0x98BADCFE#32, 0x10325476#32, 0xC3D2E1F0#32] ∧
  (List.range 5).map Rom.kl = [0x00000000#32, 0x5A827999#32, 0x6ED9EBA1#32, 0x8F1BBCDC#32, 0xA953FD4E#32] ∧
  (List.range 5).map Rom.kr = [0x50A28BE6#32, 0x5C4DD124#32, 0x6D703EF3#32, 0x7A6D76E9#32, 0x00000000#32] ∧
  (List.range 80).map (fun j => (Rom.rl j).toNat) =
    [0, 1, 2, 3, 4, 5, 6, 7, 8, 9, 10, 11, 12, 13, 14, 15] ++
    [7, 4, 13, 1, 10, 6, 15, 3, 12, 0, 9, 5, 2, 14, 11, 8] ++
    [3, 10, 14, 4, 9, 15, 8, 1, 2, 7, 0, 6, 13, 11, 5, 12] ++
    [1, 9, 11, 10, 0, 8, 12, 4, 13, 3, 7, 15, 14, 5, 6, 2] ++
    [4, 0, 5, 9, 7, 12, 2, 10, 14, 1, 3, 8, 11, 6, 15, 13] ∧
  (List.range 80).map (fun j => (Rom.rr j).toNat) =
    [5, 14, 7, 0, 9, 2, 11, 4, 13, 6, 15, 8, 1, 10, 3, 12] ++
    [6, 11, 3, 7, 0, 13, 5, 10, 14, 15, 8, 12, 4, 9, 1, 2] ++
    [15, 5, 1, 3, 7, 14, 6, 9, 11, 8, 12, 2, 10, 0, 4, 13] ++
    [8, 6, 4, 1, 3, 11, 15, 0, 5, 12, 2, 13, 9, 7, 10, 14] ++
    [12, 15, 10, 4, 1, 5, 8, 7, 6, 2, 13, 14, 0, 3, 9, 11] ∧
  (List.range 80).map (fun j => (Rom.sl j).toNat) =
    [11, 14, 15, 12, 5, 8, 7, 9, 11, 13, 14, 15, 6, 7, 9, 8] ++
    [7, 6, 8, 13, 11, 9, 7, 15, 7, 12, 15, 9, 11, 7, 13, 12] ++
    [11, 13, 6, 7, 14, 9, 13, 15, 14, 8, 13, 6, 5, 12, 7, 5] ++
    [11, 12, 14, 15, 14, 15, 9, 8, 9, 14, 5, 6, 8, 6, 5, 12] ++
    [9, 15, 5, 11, 6, 8, 13, 12, 5, 12, 13, 14, 11, 8, 5, 6] ∧
  (List.range 80).map (fun j => (Rom.sr j).toNat) =
    [8, 9, 9, 11, 13, 15, 15, 5, 7, 7, 8, 11, 14, 14, 12, 6] ++
    [9, 13, 15, 7, 12, 8, 9, 11, 7, 7, 12, 7, 6, 15, 13, 11] ++
    [9, 7, 15, 11, 8, 6, 6, 14, 12, 13, 5, 14, 13, 13, 7, 5] ++
    [15, 5, 8, 11, 14, 14, 6, 14, 6, 9, 12, 9, 12, 5, 15, 8] ++
    [8, 5, 12, 9, 12, 5, 14, 6, 8, 13, 6, 5, 15, 13, 11, 11] ∧
  (∀ (g : Fin 5) (w : Fin 16), (∃ j : Fin 16, (Rom.rl (16 * g + j)).toNat = w) ∧
    (∃ j : Fin 16, (Rom.rr (16 * g + j)).toNat = w)) ∧
  (∀ j : Fin 80, 5 ≤ (Rom.sl j).toNat ∧ (Rom.sl j).toNat ≤ 15 ∧ 5 ≤ (Rom.sr j).toNat ∧ (Rom.sr j).toNat ≤ 15)

/-- R143(c): the printed values of `Compress` for a block of zeros and a block of bytes that tell the message words
apart (95_test_vectors.md section 2.4). -/
def Obligations.CompressUnitVectors : Prop :=
  compress Rom.iv (List.replicate 64 0x00#8) =
    ⟨0x187E9BC5#32, 0x248B9535#32, 0xD0D6DDCC#32, 0x987C4E30#32, 0xCB45101F#32⟩ ∧
  compress Rom.iv ((List.range 64).map (BitVec.ofNat 8)) =
    ⟨0xD6E08676#32, 0xA2E0EABA#32, 0xC4A552B7#32, 0x3B94ADCB#32, 0x54768374#32⟩

/-- R139: no line's round reads the other line. -/
def Obligations.LinesAreIndependent : Prop :=
  ∀ (s : State) (l r : Line), s.j.toNat ≤ 79 →
    ∃ t u v, exec .round s = .next t ∧ exec .round { s with right := r } = .next u ∧
      exec .round { s with left := l } = .next v ∧ u.left = t.left ∧ v.right = t.right

/-- R141 and its rows of R186: `H[i] <- H[(i+1) mod 5] + L[(i+2) mod 5] + R[(i+3) mod 5]`, all from the old `H`; then
where `RET` says. Past the compression the working registers are open (R22), and the end of an `UPDATE` leaves what is
transient open. -/
def Obligations.CombineFoldsBothLines : Prop :=
  ∀ s : State, (s.ret = .abs → s.opl.hasPayload = true) →
    ∃ t, exec .combine s = .next t ∧
      (∀ i, i < 5 → t.h.words[i]? = some
        (s.h.words.getD ((i + 1) % 5) 0 + s.left.words.getD ((i + 2) % 5) 0 + s.right.words.getD ((i + 3) % 5) 0)) ∧
      (s.ret = .last →
        t = { s with h := t.h, seq := SeqCode.out, left := t.left, right := t.right, draws := t.draws }) ∧
      (s.ret = .spill →
        t = { s with
          h := t.h, p := 0#7, seq := SeqCode.padz, left := t.left, right := t.right, draws := t.draws }) ∧
      (s.ret = .abs → s.payload ≠ [] →
        t = { s with h := t.h, seq := SeqCode.absorb, left := t.left, right := t.right, draws := t.draws }) ∧
      (s.ret = .abs → s.payload = [] → s.opl = .hash →
        t = { s with h := t.h, seq := SeqCode.latch, left := t.left, right := t.right, draws := t.draws }) ∧
      (s.ret = .abs → s.payload = [] → s.opl = .update →
        (∀ a, a < s.count → t.buf.read a = s.buf.read a) ∧ t.response = some ⟨.ok, none⟩ ∧
        t = { s.withTransientsOf t with h := t.h, buf := t.buf, response := t.response, seq := SeqCode.idle })

/-- R130, R140 and R187: from `LOAD`, 81 steps (`LOAD` and the 80 rounds) bring the sequencer to `COMBINE`, whose new
`H` is then `Compress` of the old `H` and the 64 bytes of `BUF`; nothing but the compression's transients has changed. -/
def Obligations.CompressionRunsEightyRounds : Prop :=
  ∀ s : State, s.seq = SeqCode.load → s.rstIn = [] →
    ∃ t, Sys2Proof.core.run 81 s = .next t ∧ t.seq = SeqCode.combine ∧
      combineLines t.h t.left t.right = compress s.h (s.buf.readBytes 0 64) ∧
      t = { s with x := t.x, left := t.left, right := t.right, j := t.j, seq := t.seq }

/-! ## FINAL and its micro-operations -/

/-- R160: an admitted `FINAL`. The tail is one block for `n <= 55` and two for `n >= 56`; its blocks are compressed from
`H` and the result is serialised into `DOUT`, which the response carries and the host reads (R29); `H`, `TOTAL` and `BUF`
are left open. In another phase it is refused. -/
def Obligations.FinalPadsAndSerialises : Prop :=
  (∀ (s : State) (code : RspCode), s.seq = SeqCode.idle → s.phase.refusal = some code →
    exec .final s = .next (s.protocolError code)) ∧
  ∀ s : State, s.seq = SeqCode.idle → s.phase = .active →
    let n := s.count
    let z := if n ≤ 55 then 55 - n else 119 - n
    let len := BitVec.ofNat 64 (8 * s.total.toNat)
    let tail := s.buf.readBytes 0 n ++ [0x80#8] ++ List.replicate z 0x00#8 ++
      (List.range 8).map (fun k => len.extractLsb' (8 * k) 8)
    let h := (List.range (if n ≤ 55 then 1 else 2)).foldl
      (fun h k => compress h ((tail.drop (64 * k)).take 64)) s.h
    tail.length = (if n ≤ 55 then 64 else 128) ∧
    ∃ t, exec .final s = .next t ∧
      (∀ i k, i < 5 → k < 4 → t.dout.read (4 * i + k) = (h.words.getD i 0).extractLsb' (8 * k) 8 ∧
        t.readDout (4 * i + k) = (h.words.getD i 0).extractLsb' (8 * k) 8) ∧
      t.phase = .done ∧ t.response = some ⟨.ok, some t.digest⟩ ∧
      t = { s.withTransientsOf t with
        h := t.h, total := t.total, buf := t.buf, dout := t.dout, phase := .done, response := t.response,
        payload := [] }

/-- R170: the padding for every buffered count: where the marker, the zeros and the length stand, and how many blocks
there are. -/
def Obligations.PaddingLayout : Prop :=
  ∀ (buffered : List Byte) (total : BitVec 64), buffered.length < 64 →
    let n := buffered.length
    let tail := padTail buffered total
    let last := if n ≤ 55 then 0 else 64
    tail.length = last + 64 ∧
    (∀ i, i < n → tail[i]? = buffered[i]?) ∧ tail[n]? = some 0x80#8 ∧
    (∀ i, n < i → i < last + 56 → tail[i]? = some 0x00#8) ∧
    (∀ k, k < 8 → tail[last + 56 + k]? = some ((BitVec.ofNat 64 (8 * total.toNat)).extractLsb' (8 * k) 8))

/-- R167: the bit length on halves. -/
def Obligations.BitLengthOnHalves : Prop :=
  ∀ s : State,
    (bitLength s.total).toNat = 8 * s.total.toNat % 2 ^ 64 ∧
    (bitLength s.total).extractLsb' 0 32 = s.totalLo <<< 3 ∧
    (bitLength s.total).extractLsb' 32 32 = (s.totalHi <<< 3) ||| (s.totalLo >>> 29)

/-- R161: `LATCH`. -/
def Obligations.LatchTakesLengthAndPointer : Prop :=
  ∀ s : State, ∃ t, exec .latch s = .next t ∧
    t.len.toNat = 8 * s.total.toNat % 2 ^ 64 ∧ t.p.toNat = s.total.toNat % 64 ∧ t.seq = SeqCode.pad80 ∧
    t = { s with len := t.len, p := t.p, seq := t.seq, left := t.left, right := t.right }

/-- R163, R164 and their rows of R186: `PAD80` and `PADZ` write one byte at `BUF[P]` and advance `P`; then the length
field at `P = 56`, the spill block's compression at `P = 64`, else `PADZ`. -/
def Obligations.PaddingWritesOneByte : Prop :=
  ∀ (i : Instr) (b : Byte) (s : State), (i = .pad80 ∧ b = 0x80#8) ∨ (i = .padz ∧ b = 0x00#8) →
    s.p.toNat ≤ 63 → s.buf.wf 64 = true →
    ∃ t, exec i s = .next t ∧ t.buf.read s.p.toNat = b ∧
      (∀ a, a ≠ s.p.toNat → t.buf.read a = s.buf.read a) ∧ t.p.toNat = s.p.toNat + 1 ∧
      t.seq = (if t.p.toNat = 56 then SeqCode.padlen else if t.p.toNat = 64 then SeqCode.load else SeqCode.padz) ∧
      t.ret = (if t.p.toNat = 64 then .spill else s.ret) ∧
      t = { s with
        buf := t.buf, p := t.p, seq := t.seq, ret := t.ret, left := t.left, right := t.right }

/-- R165 and its rows of R186: `PADLEN` writes byte `P - 56` of the length, and goes to the last compression once `P` is
64. -/
def Obligations.PadlenWritesOneLengthByte : Prop :=
  ∀ s : State, 56 ≤ s.p.toNat → s.p.toNat ≤ 63 → s.buf.wf 64 = true →
    ∃ t, exec .padlen s = .next t ∧
      t.buf.read s.p.toNat = s.len.extractLsb' (8 * (s.p.toNat - 56)) 8 ∧
      (∀ a, a ≠ s.p.toNat → t.buf.read a = s.buf.read a) ∧ t.p.toNat = s.p.toNat + 1 ∧
      t.seq = (if s.p.toNat = 63 then SeqCode.load else SeqCode.padlen) ∧
      t.ret = (if s.p.toNat = 63 then .last else s.ret) ∧
      t = { s with
        buf := t.buf, p := t.p, seq := t.seq, ret := t.ret, left := t.left, right := t.right }

/-- R168, R53 and the row of R186: `OUT` serialises `H`, sets `PHASE` and responds with the digest, which the host reads
(R29); the context is left open (R169). -/
def Obligations.OutSerialisesTheChain : Prop :=
  ∀ s : State, ∃ t, exec .out s = .next t ∧
    (∀ i k, i < 5 → k < 4 → t.dout.read (4 * i + k) = (s.h.words.getD i 0).extractLsb' (8 * k) 8 ∧
      t.readDout (4 * i + k) = (s.h.words.getD i 0).extractLsb' (8 * k) 8) ∧
    t.phase = .done ∧ t.response = some ⟨.ok, some t.digest⟩ ∧ t.seq = SeqCode.idle ∧
    t = { s.withTransientsOf t with
      h := t.h, total := t.total, buf := t.buf, dout := t.dout, phase := .done, response := t.response,
      seq := t.seq, payload := [] }

/-! ## HASH and the digest -/

/-- R180: `HASH data` is `INIT`, one `UPDATE` over the whole message, `FINAL`, with one response at the end. -/
def Obligations.HashIsInitUpdateFinal : Prop :=
  ∀ (s : State) (data : List Byte), s.seq = SeqCode.idle →
    ∃ a b c t, exec .init s = .next a ∧ exec (.update data) a = .next b ∧ exec .final b = .next c ∧
      exec (.hash data) s = .next t ∧
      t.dout = c.dout ∧ t.phase = .done ∧ c.phase = .done ∧ t.response = c.response ∧
      t = { s.withTransientsOf t with
        h := t.h, total := t.total, buf := t.buf, dout := t.dout, phase := t.phase, response := t.response,
        payload := [] }

/-- R172 with R180: `HASH data` answers with the RIPEMD-160 digest of `data`, in every phase. -/
def Obligations.HashGivesTheDigest : Prop :=
  ∀ (s : State) (data : List Byte), s.seq = SeqCode.idle → s.buf.wf 64 = true →
    ∃ t, exec (.hash data) s = .next t ∧ t.Finished (ripemd160 data) ∧
      t.response = some ⟨.ok, some (ripemd160 data)⟩ ∧ t.err = s.err

/-- R182: the empty message. -/
def Obligations.EmptyMessageDigest : Prop :=
  ∀ s : State, s.seq = SeqCode.idle →
    ∃ t, exec (.hash []) s = .next t ∧
      t.response = some ⟨.ok, some
        [0x9c#8, 0x11#8, 0x85#8, 0xa5#8, 0xc5#8, 0xe9#8, 0xfc#8, 0x54#8, 0x61#8, 0x28#8,
         0x08#8, 0x97#8, 0x7e#8, 0xe8#8, 0xf5#8, 0x48#8, 0xb2#8, 0x25#8, 0x8d#8, 0x31#8]⟩

/-- R236 `Fresh`: `INIT` begins the empty message. -/
def Obligations.InitStartsTheEmptyMessage : Prop :=
  ∀ s : State, s.seq = SeqCode.idle → ∃ t, exec .init s = .next t ∧ t.Streaming []

/-- R38: the lifecycle invariant. An engine that holds the message prefix `m` holds `m ++ data` after `UPDATE data`. -/
def Obligations.UpdateKeepsStreaming : Prop :=
  ∀ (s : State) (m data : List Byte), s.buf.wf 64 = true → s.Streaming m →
    ∃ t, exec (.update data) s = .next t ∧ t.Streaming (m ++ data) ∧ t.buf.wf 64 = true ∧ t.err = s.err

/-- R172 and R169: an engine that holds the message `m` answers `FINAL` with the RIPEMD-160 digest of `m`. -/
def Obligations.FinalGivesTheDigest : Prop :=
  ∀ (s : State) (m : List Byte), s.Streaming m →
    ∃ t, exec .final s = .next t ∧ t.Finished (ripemd160 m) ∧
      t.response = some ⟨.ok, some (ripemd160 m)⟩ ∧ t.err = s.err

/-- R37: no command reads what is `any`. From two engines that agree in the parts that hold a value, every command
gives the same response and again two such engines. -/
def Obligations.CommandsReadNoOpenValue : Prop :=
  ∀ (s u : State) (i : Instr), i.isCommand = true → s.SameContext u → s.buf.wf 64 = true → u.buf.wf 64 = true →
    ∃ t v, exec i s = .next t ∧ exec i u = .next v ∧ t.SameContext v ∧ t.response = v.response

/-! ## Admission and refusal -/

/-- R193: what every command answers in every phase, by name and by the bits of `rsp_code` (R92). -/
def Obligations.AdmissionTable : Prop :=
  ∀ (s : State) (data : List Byte), s.seq = SeqCode.idle →
    let answer := fun (i : Instr) => ∃ t r, exec i s = .next t ∧ t.response = some r ∧
      r.code = (if i = .init ∨ i = .hash data then .ok
        else if s.phase = .uninit then .notInitialised
        else if s.phase = .active then .ok else .alreadyFinalised) ∧
      r.code.bits = (if i = .init ∨ i = .hash data then 0b00#2
        else if s.phase = .uninit then 0b01#2
        else if s.phase = .active then 0b00#2 else 0b10#2)
    answer .init ∧ answer (.update data) ∧ answer .final ∧ answer (.hash data)

/-- R222: from reset the legal command sequences, `( INIT+ UPDATE* FINAL | HASH | INIT+ UPDATE* )*`, are exactly those
with no refused command, read from `ERR`; every sequence of commands runs to its end. -/
def Obligations.LegalSequencesAreNeverRefused : Prop :=
  ∀ (s : State) (commands : List Instr), s.seq = SeqCode.idle → s.phase = .uninit → s.err = false →
    (∀ i, i ∈ commands → i.isCommand = true) →
    ∃ t, execCommands commands s = .next t ∧ t.seq = SeqCode.idle ∧ (t.err = false ↔ LegalCommands commands)

/-- R194: a refused command, and the micro-operation `REFUSE`, set `ERR`, discard the payload, answer with the cause and
change nothing else: in `DONE` the host still reads the earlier digest. -/
def Obligations.RefusalTouchesNothingElse : Prop :=
  ∀ (s : State) (data : List Byte), s.phase ≠ .active →
    ∃ t, exec .refuse s = .next t ∧
      t = { s with
        err := true, payload := [], seq := SeqCode.idle,
        response := some ⟨if s.phase = .uninit then .notInitialised else .alreadyFinalised, none⟩ } ∧
      (∀ i, t.readDout i = s.readDout i) ∧
      (s.seq = SeqCode.idle → exec (.update data) s = .next t ∧ exec .final s = .next t)

/-- R193 and the `IDLE` rows of R186: with no command offered `IDLE` waits; with one it is taken from the port, checked,
and carried to its first micro-operation. The model's choices: the old response is gone from the port at acceptance (log
entry 13), and `IDLE` keeps the transient registers, which R22 and R37(a) leave open there (log entry 9). -/
def Obligations.IdleAcceptsOneCommand : Prop :=
  (∀ s : State, s.pending = [] → exec .idle s = .next s) ∧
  (∀ (s : State) (c : Command) (rest : List Command), s.pending = c :: rest →
    ∃ t, exec .idle s = .next t ∧
      (c.op = 0b00#2 → t = { s with
        pending := rest, opl := .init, payload := [], response := none, seq := SeqCode.uinit }) ∧
      (c.op = 0b11#2 → t = { s with
        pending := rest, opl := .hash, payload := c.payload, response := none, seq := SeqCode.uinit }) ∧
      (c.op = 0b01#2 → s.phase = .active → c.payload ≠ [] → t = { s with
        pending := rest, opl := .update, payload := c.payload, response := none, seq := SeqCode.absorb }) ∧
      (c.op = 0b01#2 → s.phase = .active → c.payload = [] →
        (∀ a, a < s.count → t.buf.read a = s.buf.read a) ∧ t.response = some ⟨.ok, none⟩ ∧
        t = { s.withTransientsOf t with
          pending := rest, buf := t.buf, payload := [], response := t.response, seq := SeqCode.idle }) ∧
      (c.op = 0b10#2 → s.phase = .active → t = { s with
        pending := rest, opl := .final, payload := [], response := none, seq := SeqCode.latch }) ∧
      (c.op = 0b01#2 ∨ c.op = 0b10#2 → s.phase ≠ .active → t = { s with
        pending := rest, payload := [], response := none, seq := SeqCode.refuse }))

/-- 93_implementation_defined.md U11: the combinations of control registers R186 has no row for, each stopping by a
name of its own (log entry 11). `REFUSE` has its row for every phase: with `PHASE = ACTIVE`, for which R191 has no cause,
it runs with the code of the response open (log entry 20) and the rest as R194 says. -/
def Obligations.UnreachableCombinationsStop : Prop :=
  ∀ s : State,
    (s.opl = .update ∨ s.opl = .final → exec .uinit s = .fault (.noTransition SeqCode.uinit s.opl)) ∧
    (s.ret = .abs → s.payload = [] → s.opl = .init ∨ s.opl = .final →
      exec .combine s = .fault (.noTransition SeqCode.combine s.opl)) ∧
    (∀ b, s.payload = [b] → s.count ≠ 63 → s.opl = .init ∨ s.opl = .final →
      exec .absorb s = .fault (.noTransition SeqCode.absorb s.opl)) ∧
    (79 < s.j.toNat → exec .round s = .fault (.romIndex s.j)) ∧
    (63 < s.p.toNat → exec .pad80 s = .fault (.bufIndex s.p) ∧ exec .padz s = .fault (.bufIndex s.p)) ∧
    (s.p.toNat < 56 ∨ 63 < s.p.toNat → exec .padlen s = .fault (.lengthIndex s.p)) ∧
    (s.phase = .active → ∃ t code, exec .refuse s = .next t ∧
      t = { s with
        err := true, payload := [], response := some ⟨code, none⟩, seq := SeqCode.idle, draws := t.draws })

/-! ## Who writes what -/

/-- R30: the only changes of `PHASE`, by an instruction and by a step: the reset event makes it `UNINIT`, and else the
instruction the step runs makes one of the changes of the lifecycle. -/
def Obligations.PhaseChangesOnlyInTheLifecycle : Prop :=
  (∀ (i : Instr) (s t : State), exec i s = .next t → t.phase ≠ s.phase → lifecycleChange i s.phase t.phase) ∧
  (∀ s t : State, step s = .next t → t.phase ≠ s.phase →
    (s.rstIn.head? = some 0 ∧ t.phase = .uninit) ∨
    (∃ i, decode s.fetch.1 = .ok i ∧ lifecycleChange i s.phase t.phase))

/-- R29: among the instructions `DOUT` is written only by `OUT` and the two commands that end in it, so that the digest the
host reads lasts until the next `INIT`, `FINAL` or `HASH`; a step writes it through these or through the reset event. -/
def Obligations.DigestIsWrittenOnlyByOut : Prop :=
  (∀ (i : Instr) (s t : State), exec i s = .next t → i ≠ .out → i ≠ .final → (∀ data, i ≠ .hash data) →
    t.dout = s.dout) ∧
  (∀ s t : State, step s = .next t → t.dout ≠ s.dout →
    s.rstIn.head? = some 0 ∨
    (∃ i, decode s.fetch.1 = .ok i ∧ (i = .out ∨ i = .final ∨ ∃ data, i = .hash data)))

/-- R21: the chaining value is written only by the context's creation, by compressions, and, left open, by what ends a
message. -/
def Obligations.ChainIsWrittenOnlyByItsWriters : Prop :=
  ∀ (i : Instr) (s t : State), exec i s = .next t →
    i = .idle ∨ i = .absorb ∨ i = .load ∨ i = .round ∨ i = .latch ∨ i = .pad80 ∨ i = .padz ∨ i = .padlen ∨
      i = .refuse → t.h = s.h ∧ (t.total = s.total ∨ i = .absorb)

/-- R22: the working registers are read by `ROUND` and `COMBINE` alone, and after `COMBINE` they hold what no claim can
tell: it does not depend on what they held. That `ABSORB` and the padding micro-operations keep the value drawn there,
and do not draw again, is the model's choice, log entry 9. -/
def Obligations.WorkingRegistersAreKeptWithinACommand : Prop :=
  (∀ (i : Instr) (s t : State) (l r : Line), i ≠ .round → i ≠ .combine → exec i s = .next t →
    ∃ u, exec i { s with left := l, right := r } = .next u ∧ u = { t with left := u.left, right := u.right }) ∧
  (∀ (s t u : State) (l r : Line), exec .combine s = .next t →
    exec .combine { s with left := l, right := r } = .next u → t.left = u.left ∧ t.right = u.right) ∧
  (∀ (i : Instr) (s t : State), exec i s = .next t →
    i = .latch ∨ i = .pad80 ∨ i = .padz ∨ i = .padlen ∨ (i = .absorb ∧ t.seq ≠ SeqCode.idle) →
      t.left = s.left ∧ t.right = s.right)

/-! ## The invariant -/

/-- The invariant holds right after reset. -/
def Obligations.ResetSatisfiesInv : Prop :=
  State.reset.Inv

/-- R59, R164, R165, R186: from every state that satisfies it, a step keeps the invariant: the byte spaces stay canonical
and the control registers stay in a combination the sequencer has a row for. -/
def Obligations.StepKeepsInv : Prop :=
  ∀ s t : State, s.Inv → step s = .next t → t.Inv

/-- R195: nothing faults: from every state that satisfies the invariant, a step answers a next state. -/
def Obligations.NothingFaults : Prop :=
  ∀ s : State, s.Inv → ∃ t, step s = .next t

/-! ## The sequencer realises the commands -/

/-- R100, R187 and R194: accepted in `IDLE`, `INIT` takes one step of the sequencer and a refused command takes one, and
each ends in the very state the command-level rule gives. -/
def Obligations.SequencerRunsInitAndRefusals : Prop :=
  ∀ (s : State) (c : Command) (rest : List Command),
    s.seq = SeqCode.idle → s.grain = .sequencer → s.rstIn = [] → s.pending = c :: rest →
    c.op = 0b00#2 ∨ ((c.op = 0b01#2 ∨ c.op = 0b10#2) ∧ s.phase ≠ .active) →
    Sys2Proof.core.run (1 + 1) s = exec (decodeCommand c) { s with pending := rest }

/-- R115 and R187: accepted in `IDLE`, an admitted `UPDATE` takes `ilen + 82 q` steps of the sequencer and ends in the
very state the command-level rule gives. -/
def Obligations.SequencerRunsUpdate : Prop :=
  ∀ (s : State) (data : List Byte) (rest : List Command),
    s.seq = SeqCode.idle → s.grain = .sequencer → s.rstIn = [] → s.phase = .active → s.buf.wf 64 = true →
    s.pending = ⟨0b01#2, data⟩ :: rest →
    Sys2Proof.core.run (1 + updateSteps s.count data.length) s = exec (.update data) { s with pending := rest }

/-- R166 and R187: accepted in `IDLE`, an admitted `FINAL` takes `148 - n` or `294 - n` steps of the sequencer and ends in
the very state the command-level rule gives. -/
def Obligations.SequencerRunsFinal : Prop :=
  ∀ (s : State) (rest : List Command),
    s.seq = SeqCode.idle → s.grain = .sequencer → s.rstIn = [] → s.phase = .active → s.buf.wf 64 = true →
    s.pending = ⟨0b10#2, []⟩ :: rest →
    Sys2Proof.core.run (1 + finalSteps s.count) s = exec .final { s with pending := rest }

/-- R180 and R187: accepted in `IDLE`, `HASH` takes the steps of its three parts and ends in the very state the
command-level rule gives. -/
def Obligations.SequencerRunsHash : Prop :=
  ∀ (s : State) (data : List Byte) (rest : List Command),
    s.seq = SeqCode.idle → s.grain = .sequencer → s.rstIn = [] → s.buf.wf 64 = true →
    s.pending = ⟨0b11#2, data⟩ :: rest →
    Sys2Proof.core.run (1 + hashSteps data.length) s = exec (.hash data) { s with pending := rest }
end

