-- ==== Sys2Proof/Laws/State.lean ====
section
/-! SUPPORT. What each shared update of the state does to each field: one lemma per field, so that no proof unfolds a
record update. -/

namespace Sys2Proof.Machine

/-- The state after one payload byte, before the sequencer moves. -/
def State.absorbed (s : State) (b : Byte) (rest : List Byte) : State :=
  { s with buf := s.buf.write s.count b, total := addTotal s.total 1, payload := rest }

/-! `State.anyTransients`. -/

@[simp] theorem State.anyTransients_h (s : State) :
    s.anyTransients.h = s.h := rfl
@[simp] theorem State.anyTransients_total (s : State) :
    s.anyTransients.total = s.total := rfl
@[simp] theorem State.anyTransients_buf (s : State) :
    s.anyTransients.buf = s.buf := rfl
@[simp] theorem State.anyTransients_phase (s : State) :
    s.anyTransients.phase = s.phase := rfl
@[simp] theorem State.anyTransients_err (s : State) :
    s.anyTransients.err = s.err := rfl
@[simp] theorem State.anyTransients_dout (s : State) :
    s.anyTransients.dout = s.dout := rfl
@[simp] theorem State.anyTransients_left (s : State) :
    s.anyTransients.left = Line.ofChain (anyChain s.draws 0) := rfl
@[simp] theorem State.anyTransients_right (s : State) :
    s.anyTransients.right = Line.ofChain (anyChain s.draws 5) := rfl
@[simp] theorem State.anyTransients_x (s : State) :
    s.anyTransients.x = anyWords s.draws 10 := rfl
@[simp] theorem State.anyTransients_len (s : State) :
    s.anyTransients.len = anyBits s.draws 64 26 := rfl
@[simp] theorem State.anyTransients_p (s : State) :
    s.anyTransients.p = anyBits s.draws 7 27 := rfl
@[simp] theorem State.anyTransients_j (s : State) :
    s.anyTransients.j = anyBits s.draws 7 28 := rfl
@[simp] theorem State.anyTransients_opl (s : State) :
    s.anyTransients.opl = Op.ofBits (anyBits s.draws 2 29) := rfl
@[simp] theorem State.anyTransients_ret (s : State) :
    s.anyTransients.ret = Ret.ofBits (anyBits s.draws 2 30) := rfl
@[simp] theorem State.anyTransients_seq (s : State) :
    s.anyTransients.seq = s.seq := rfl
@[simp] theorem State.anyTransients_payload (s : State) :
    s.anyTransients.payload = s.payload := rfl
@[simp] theorem State.anyTransients_response (s : State) :
    s.anyTransients.response = s.response := rfl
@[simp] theorem State.anyTransients_pending (s : State) :
    s.anyTransients.pending = s.pending := rfl
@[simp] theorem State.anyTransients_rstIn (s : State) :
    s.anyTransients.rstIn = s.rstIn := rfl
@[simp] theorem State.anyTransients_grain (s : State) :
    s.anyTransients.grain = s.grain := rfl
@[simp] theorem State.anyTransients_draws (s : State) :
    s.anyTransients.draws = s.draws + 1 := rfl

/-! `State.anyTail`. -/

@[simp] theorem State.anyTail_h (s : State) :
    s.anyTail.h = s.h := rfl
@[simp] theorem State.anyTail_total (s : State) :
    s.anyTail.total = s.total := rfl
@[simp] theorem State.anyTail_buf (s : State) :
    s.anyTail.buf = Memory.ofBytes (s.buf.readBytes 0 s.count ++ anyBytes s.draws (64 + s.count) (64 - s.count)) := rfl
@[simp] theorem State.anyTail_phase (s : State) :
    s.anyTail.phase = s.phase := rfl
@[simp] theorem State.anyTail_err (s : State) :
    s.anyTail.err = s.err := rfl
@[simp] theorem State.anyTail_dout (s : State) :
    s.anyTail.dout = s.dout := rfl
@[simp] theorem State.anyTail_left (s : State) :
    s.anyTail.left = s.left := rfl
@[simp] theorem State.anyTail_right (s : State) :
    s.anyTail.right = s.right := rfl
@[simp] theorem State.anyTail_x (s : State) :
    s.anyTail.x = s.x := rfl
@[simp] theorem State.anyTail_len (s : State) :
    s.anyTail.len = s.len := rfl
@[simp] theorem State.anyTail_p (s : State) :
    s.anyTail.p = s.p := rfl
@[simp] theorem State.anyTail_j (s : State) :
    s.anyTail.j = s.j := rfl
@[simp] theorem State.anyTail_opl (s : State) :
    s.anyTail.opl = s.opl := rfl
@[simp] theorem State.anyTail_ret (s : State) :
    s.anyTail.ret = s.ret := rfl
@[simp] theorem State.anyTail_seq (s : State) :
    s.anyTail.seq = s.seq := rfl
@[simp] theorem State.anyTail_payload (s : State) :
    s.anyTail.payload = s.payload := rfl
@[simp] theorem State.anyTail_response (s : State) :
    s.anyTail.response = s.response := rfl
@[simp] theorem State.anyTail_pending (s : State) :
    s.anyTail.pending = s.pending := rfl
@[simp] theorem State.anyTail_rstIn (s : State) :
    s.anyTail.rstIn = s.rstIn := rfl
@[simp] theorem State.anyTail_grain (s : State) :
    s.anyTail.grain = s.grain := rfl
@[simp] theorem State.anyTail_draws (s : State) :
    s.anyTail.draws = s.draws := rfl

/-! `State.anyContext`. -/

@[simp] theorem State.anyContext_h (s : State) :
    s.anyContext.h = anyChain s.draws 40 := rfl
@[simp] theorem State.anyContext_total (s : State) :
    s.anyContext.total = anyBits s.draws 64 45 := rfl
@[simp] theorem State.anyContext_buf (s : State) :
    s.anyContext.buf = Memory.ofBytes (anyBytes s.draws 64 64) := by simp only [State.anyContext]
@[simp] theorem State.anyContext_phase (s : State) :
    s.anyContext.phase = s.phase := rfl
@[simp] theorem State.anyContext_err (s : State) :
    s.anyContext.err = s.err := rfl
@[simp] theorem State.anyContext_dout (s : State) :
    s.anyContext.dout = s.dout := rfl
@[simp] theorem State.anyContext_left (s : State) :
    s.anyContext.left = s.left := rfl
@[simp] theorem State.anyContext_right (s : State) :
    s.anyContext.right = s.right := rfl
@[simp] theorem State.anyContext_x (s : State) :
    s.anyContext.x = s.x := rfl
@[simp] theorem State.anyContext_len (s : State) :
    s.anyContext.len = s.len := rfl
@[simp] theorem State.anyContext_p (s : State) :
    s.anyContext.p = s.p := rfl
@[simp] theorem State.anyContext_j (s : State) :
    s.anyContext.j = s.j := rfl
@[simp] theorem State.anyContext_opl (s : State) :
    s.anyContext.opl = s.opl := rfl
@[simp] theorem State.anyContext_ret (s : State) :
    s.anyContext.ret = s.ret := rfl
@[simp] theorem State.anyContext_seq (s : State) :
    s.anyContext.seq = s.seq := rfl
@[simp] theorem State.anyContext_payload (s : State) :
    s.anyContext.payload = s.payload := rfl
@[simp] theorem State.anyContext_response (s : State) :
    s.anyContext.response = s.response := rfl
@[simp] theorem State.anyContext_pending (s : State) :
    s.anyContext.pending = s.pending := rfl
@[simp] theorem State.anyContext_rstIn (s : State) :
    s.anyContext.rstIn = s.rstIn := rfl
@[simp] theorem State.anyContext_grain (s : State) :
    s.anyContext.grain = s.grain := rfl
@[simp] theorem State.anyContext_draws (s : State) :
    s.anyContext.draws = s.draws := rfl

/-! `State.respond`. -/

@[simp] theorem State.respond_h (s : State) (code : RspCode) (digest : Option (List Byte)) :
    (s.respond code digest).h = s.h := rfl
@[simp] theorem State.respond_total (s : State) (code : RspCode) (digest : Option (List Byte)) :
    (s.respond code digest).total = s.total := rfl
@[simp] theorem State.respond_buf (s : State) (code : RspCode) (digest : Option (List Byte)) :
    (s.respond code digest).buf = s.buf := rfl
@[simp] theorem State.respond_phase (s : State) (code : RspCode) (digest : Option (List Byte)) :
    (s.respond code digest).phase = s.phase := rfl
@[simp] theorem State.respond_err (s : State) (code : RspCode) (digest : Option (List Byte)) :
    (s.respond code digest).err = s.err := rfl
@[simp] theorem State.respond_dout (s : State) (code : RspCode) (digest : Option (List Byte)) :
    (s.respond code digest).dout = s.dout := rfl
@[simp] theorem State.respond_left (s : State) (code : RspCode) (digest : Option (List Byte)) :
    (s.respond code digest).left = s.left := rfl
@[simp] theorem State.respond_right (s : State) (code : RspCode) (digest : Option (List Byte)) :
    (s.respond code digest).right = s.right := rfl
@[simp] theorem State.respond_x (s : State) (code : RspCode) (digest : Option (List Byte)) :
    (s.respond code digest).x = s.x := rfl
@[simp] theorem State.respond_len (s : State) (code : RspCode) (digest : Option (List Byte)) :
    (s.respond code digest).len = s.len := rfl
@[simp] theorem State.respond_p (s : State) (code : RspCode) (digest : Option (List Byte)) :
    (s.respond code digest).p = s.p := rfl
@[simp] theorem State.respond_j (s : State) (code : RspCode) (digest : Option (List Byte)) :
    (s.respond code digest).j = s.j := rfl
@[simp] theorem State.respond_opl (s : State) (code : RspCode) (digest : Option (List Byte)) :
    (s.respond code digest).opl = s.opl := rfl
@[simp] theorem State.respond_ret (s : State) (code : RspCode) (digest : Option (List Byte)) :
    (s.respond code digest).ret = s.ret := rfl
@[simp] theorem State.respond_seq (s : State) (code : RspCode) (digest : Option (List Byte)) :
    (s.respond code digest).seq = s.seq := rfl
@[simp] theorem State.respond_payload (s : State) (code : RspCode) (digest : Option (List Byte)) :
    (s.respond code digest).payload = s.payload := rfl
@[simp] theorem State.respond_response (s : State) (code : RspCode) (digest : Option (List Byte)) :
    (s.respond code digest).response = some ⟨code, digest⟩ := rfl
@[simp] theorem State.respond_pending (s : State) (code : RspCode) (digest : Option (List Byte)) :
    (s.respond code digest).pending = s.pending := rfl
@[simp] theorem State.respond_rstIn (s : State) (code : RspCode) (digest : Option (List Byte)) :
    (s.respond code digest).rstIn = s.rstIn := rfl
@[simp] theorem State.respond_grain (s : State) (code : RspCode) (digest : Option (List Byte)) :
    (s.respond code digest).grain = s.grain := rfl
@[simp] theorem State.respond_draws (s : State) (code : RspCode) (digest : Option (List Byte)) :
    (s.respond code digest).draws = s.draws := rfl

/-! `State.retire`. -/

@[simp] theorem State.retire_h (s : State) :
    s.retire.h = s.h := rfl
@[simp] theorem State.retire_total (s : State) :
    s.retire.total = s.total := rfl
@[simp] theorem State.retire_buf (s : State) :
    s.retire.buf = s.buf := rfl
@[simp] theorem State.retire_phase (s : State) :
    s.retire.phase = s.phase := rfl
@[simp] theorem State.retire_err (s : State) :
    s.retire.err = s.err := rfl
@[simp] theorem State.retire_dout (s : State) :
    s.retire.dout = s.dout := rfl
@[simp] theorem State.retire_left (s : State) :
    s.retire.left = Line.ofChain (anyChain s.draws 0) := rfl
@[simp] theorem State.retire_right (s : State) :
    s.retire.right = Line.ofChain (anyChain s.draws 5) := rfl
@[simp] theorem State.retire_x (s : State) :
    s.retire.x = anyWords s.draws 10 := rfl
@[simp] theorem State.retire_len (s : State) :
    s.retire.len = anyBits s.draws 64 26 := rfl
@[simp] theorem State.retire_p (s : State) :
    s.retire.p = anyBits s.draws 7 27 := rfl
@[simp] theorem State.retire_j (s : State) :
    s.retire.j = anyBits s.draws 7 28 := rfl
@[simp] theorem State.retire_opl (s : State) :
    s.retire.opl = Op.ofBits (anyBits s.draws 2 29) := rfl
@[simp] theorem State.retire_ret (s : State) :
    s.retire.ret = Ret.ofBits (anyBits s.draws 2 30) := rfl
@[simp] theorem State.retire_seq (s : State) :
    s.retire.seq = SeqCode.idle := rfl
@[simp] theorem State.retire_payload (s : State) :
    s.retire.payload = [] := rfl
@[simp] theorem State.retire_response (s : State) :
    s.retire.response = s.response := rfl
@[simp] theorem State.retire_pending (s : State) :
    s.retire.pending = s.pending := rfl
@[simp] theorem State.retire_rstIn (s : State) :
    s.retire.rstIn = s.rstIn := rfl
@[simp] theorem State.retire_grain (s : State) :
    s.retire.grain = s.grain := rfl
@[simp] theorem State.retire_draws (s : State) :
    s.retire.draws = s.draws + 1 := rfl

/-! `State.finishInit`. -/

@[simp] theorem State.finishInit_h (s : State) :
    s.finishInit.h = s.h := rfl
@[simp] theorem State.finishInit_total (s : State) :
    s.finishInit.total = s.total := rfl
@[simp] theorem State.finishInit_buf (s : State) :
    s.finishInit.buf = s.buf := rfl
@[simp] theorem State.finishInit_phase (s : State) :
    s.finishInit.phase = s.phase := rfl
@[simp] theorem State.finishInit_err (s : State) :
    s.finishInit.err = s.err := rfl
@[simp] theorem State.finishInit_dout (s : State) :
    s.finishInit.dout = s.dout := rfl
@[simp] theorem State.finishInit_left (s : State) :
    s.finishInit.left = Line.ofChain (anyChain s.draws 0) := rfl
@[simp] theorem State.finishInit_right (s : State) :
    s.finishInit.right = Line.ofChain (anyChain s.draws 5) := rfl
@[simp] theorem State.finishInit_x (s : State) :
    s.finishInit.x = anyWords s.draws 10 := rfl
@[simp] theorem State.finishInit_len (s : State) :
    s.finishInit.len = anyBits s.draws 64 26 := rfl
@[simp] theorem State.finishInit_p (s : State) :
    s.finishInit.p = anyBits s.draws 7 27 := rfl
@[simp] theorem State.finishInit_j (s : State) :
    s.finishInit.j = anyBits s.draws 7 28 := rfl
@[simp] theorem State.finishInit_opl (s : State) :
    s.finishInit.opl = Op.ofBits (anyBits s.draws 2 29) := rfl
@[simp] theorem State.finishInit_ret (s : State) :
    s.finishInit.ret = Ret.ofBits (anyBits s.draws 2 30) := rfl
@[simp] theorem State.finishInit_seq (s : State) :
    s.finishInit.seq = SeqCode.idle := rfl
@[simp] theorem State.finishInit_payload (s : State) :
    s.finishInit.payload = [] := rfl
@[simp] theorem State.finishInit_response (s : State) :
    s.finishInit.response = some ⟨.ok, none⟩ := rfl
@[simp] theorem State.finishInit_pending (s : State) :
    s.finishInit.pending = s.pending := rfl
@[simp] theorem State.finishInit_rstIn (s : State) :
    s.finishInit.rstIn = s.rstIn := rfl
@[simp] theorem State.finishInit_grain (s : State) :
    s.finishInit.grain = s.grain := rfl
@[simp] theorem State.finishInit_draws (s : State) :
    s.finishInit.draws = s.draws + 1 := rfl

/-! `State.finishUpdate`. -/

@[simp] theorem State.finishUpdate_h (s : State) :
    s.finishUpdate.h = s.h := rfl
@[simp] theorem State.finishUpdate_total (s : State) :
    s.finishUpdate.total = s.total := rfl
@[simp] theorem State.finishUpdate_buf (s : State) :
    s.finishUpdate.buf = Memory.ofBytes (s.buf.readBytes 0 s.count ++ anyBytes s.draws (64 + s.count) (64 - s.count)) := rfl
@[simp] theorem State.finishUpdate_phase (s : State) :
    s.finishUpdate.phase = s.phase := rfl
@[simp] theorem State.finishUpdate_err (s : State) :
    s.finishUpdate.err = s.err := rfl
@[simp] theorem State.finishUpdate_dout (s : State) :
    s.finishUpdate.dout = s.dout := rfl
@[simp] theorem State.finishUpdate_left (s : State) :
    s.finishUpdate.left = Line.ofChain (anyChain s.draws 0) := rfl
@[simp] theorem State.finishUpdate_right (s : State) :
    s.finishUpdate.right = Line.ofChain (anyChain s.draws 5) := rfl
@[simp] theorem State.finishUpdate_x (s : State) :
    s.finishUpdate.x = anyWords s.draws 10 := rfl
@[simp] theorem State.finishUpdate_len (s : State) :
    s.finishUpdate.len = anyBits s.draws 64 26 := rfl
@[simp] theorem State.finishUpdate_p (s : State) :
    s.finishUpdate.p = anyBits s.draws 7 27 := rfl
@[simp] theorem State.finishUpdate_j (s : State) :
    s.finishUpdate.j = anyBits s.draws 7 28 := rfl
@[simp] theorem State.finishUpdate_opl (s : State) :
    s.finishUpdate.opl = Op.ofBits (anyBits s.draws 2 29) := rfl
@[simp] theorem State.finishUpdate_ret (s : State) :
    s.finishUpdate.ret = Ret.ofBits (anyBits s.draws 2 30) := rfl
@[simp] theorem State.finishUpdate_seq (s : State) :
    s.finishUpdate.seq = SeqCode.idle := rfl
@[simp] theorem State.finishUpdate_payload (s : State) :
    s.finishUpdate.payload = [] := rfl
@[simp] theorem State.finishUpdate_response (s : State) :
    s.finishUpdate.response = some ⟨.ok, none⟩ := rfl
@[simp] theorem State.finishUpdate_pending (s : State) :
    s.finishUpdate.pending = s.pending := rfl
@[simp] theorem State.finishUpdate_rstIn (s : State) :
    s.finishUpdate.rstIn = s.rstIn := rfl
@[simp] theorem State.finishUpdate_grain (s : State) :
    s.finishUpdate.grain = s.grain := rfl
@[simp] theorem State.finishUpdate_draws (s : State) :
    s.finishUpdate.draws = s.draws + 1 := rfl

/-! `State.finishFinal`. -/

@[simp] theorem State.finishFinal_h (s : State) :
    s.finishFinal.h = anyChain s.draws 40 := rfl
@[simp] theorem State.finishFinal_total (s : State) :
    s.finishFinal.total = anyBits s.draws 64 45 := rfl
@[simp] theorem State.finishFinal_buf (s : State) :
    s.finishFinal.buf = Memory.ofBytes (anyBytes s.draws 64 64) := by simp only [State.finishFinal, State.anyContext, State.retire, State.anyTransients, State.respond]
@[simp] theorem State.finishFinal_phase (s : State) :
    s.finishFinal.phase = .done := rfl
@[simp] theorem State.finishFinal_err (s : State) :
    s.finishFinal.err = s.err := rfl
@[simp] theorem State.finishFinal_dout (s : State) :
    s.finishFinal.dout = s.dout := rfl
@[simp] theorem State.finishFinal_left (s : State) :
    s.finishFinal.left = Line.ofChain (anyChain s.draws 0) := rfl
@[simp] theorem State.finishFinal_right (s : State) :
    s.finishFinal.right = Line.ofChain (anyChain s.draws 5) := rfl
@[simp] theorem State.finishFinal_x (s : State) :
    s.finishFinal.x = anyWords s.draws 10 := rfl
@[simp] theorem State.finishFinal_len (s : State) :
    s.finishFinal.len = anyBits s.draws 64 26 := rfl
@[simp] theorem State.finishFinal_p (s : State) :
    s.finishFinal.p = anyBits s.draws 7 27 := rfl
@[simp] theorem State.finishFinal_j (s : State) :
    s.finishFinal.j = anyBits s.draws 7 28 := rfl
@[simp] theorem State.finishFinal_opl (s : State) :
    s.finishFinal.opl = Op.ofBits (anyBits s.draws 2 29) := rfl
@[simp] theorem State.finishFinal_ret (s : State) :
    s.finishFinal.ret = Ret.ofBits (anyBits s.draws 2 30) := rfl
@[simp] theorem State.finishFinal_seq (s : State) :
    s.finishFinal.seq = SeqCode.idle := rfl
@[simp] theorem State.finishFinal_payload (s : State) :
    s.finishFinal.payload = [] := rfl
@[simp] theorem State.finishFinal_response (s : State) :
    s.finishFinal.response = some ⟨.ok, some s.digest⟩ := rfl
@[simp] theorem State.finishFinal_pending (s : State) :
    s.finishFinal.pending = s.pending := rfl
@[simp] theorem State.finishFinal_rstIn (s : State) :
    s.finishFinal.rstIn = s.rstIn := rfl
@[simp] theorem State.finishFinal_grain (s : State) :
    s.finishFinal.grain = s.grain := rfl
@[simp] theorem State.finishFinal_draws (s : State) :
    s.finishFinal.draws = s.draws + 1 := rfl

/-! `State.protocolError`. -/

@[simp] theorem State.protocolError_h (s : State) (code : RspCode) :
    (s.protocolError code).h = s.h := rfl
@[simp] theorem State.protocolError_total (s : State) (code : RspCode) :
    (s.protocolError code).total = s.total := rfl
@[simp] theorem State.protocolError_buf (s : State) (code : RspCode) :
    (s.protocolError code).buf = s.buf := rfl
@[simp] theorem State.protocolError_phase (s : State) (code : RspCode) :
    (s.protocolError code).phase = s.phase := rfl
@[simp] theorem State.protocolError_err (s : State) (code : RspCode) :
    (s.protocolError code).err = true := rfl
@[simp] theorem State.protocolError_dout (s : State) (code : RspCode) :
    (s.protocolError code).dout = s.dout := rfl
@[simp] theorem State.protocolError_left (s : State) (code : RspCode) :
    (s.protocolError code).left = s.left := rfl
@[simp] theorem State.protocolError_right (s : State) (code : RspCode) :
    (s.protocolError code).right = s.right := rfl
@[simp] theorem State.protocolError_x (s : State) (code : RspCode) :
    (s.protocolError code).x = s.x := rfl
@[simp] theorem State.protocolError_len (s : State) (code : RspCode) :
    (s.protocolError code).len = s.len := rfl
@[simp] theorem State.protocolError_p (s : State) (code : RspCode) :
    (s.protocolError code).p = s.p := rfl
@[simp] theorem State.protocolError_j (s : State) (code : RspCode) :
    (s.protocolError code).j = s.j := rfl
@[simp] theorem State.protocolError_opl (s : State) (code : RspCode) :
    (s.protocolError code).opl = s.opl := rfl
@[simp] theorem State.protocolError_ret (s : State) (code : RspCode) :
    (s.protocolError code).ret = s.ret := rfl
@[simp] theorem State.protocolError_seq (s : State) (code : RspCode) :
    (s.protocolError code).seq = SeqCode.idle := rfl
@[simp] theorem State.protocolError_payload (s : State) (code : RspCode) :
    (s.protocolError code).payload = [] := rfl
@[simp] theorem State.protocolError_response (s : State) (code : RspCode) :
    (s.protocolError code).response = some ⟨code, none⟩ := rfl
@[simp] theorem State.protocolError_pending (s : State) (code : RspCode) :
    (s.protocolError code).pending = s.pending := rfl
@[simp] theorem State.protocolError_rstIn (s : State) (code : RspCode) :
    (s.protocolError code).rstIn = s.rstIn := rfl
@[simp] theorem State.protocolError_grain (s : State) (code : RspCode) :
    (s.protocolError code).grain = s.grain := rfl
@[simp] theorem State.protocolError_draws (s : State) (code : RspCode) :
    (s.protocolError code).draws = s.draws := rfl

/-! `State.foldLines`. -/

@[simp] theorem State.foldLines_h (s : State) :
    s.foldLines.h = combineLines s.h s.left s.right := rfl
@[simp] theorem State.foldLines_total (s : State) :
    s.foldLines.total = s.total := rfl
@[simp] theorem State.foldLines_buf (s : State) :
    s.foldLines.buf = s.buf := rfl
@[simp] theorem State.foldLines_phase (s : State) :
    s.foldLines.phase = s.phase := rfl
@[simp] theorem State.foldLines_err (s : State) :
    s.foldLines.err = s.err := rfl
@[simp] theorem State.foldLines_dout (s : State) :
    s.foldLines.dout = s.dout := rfl
@[simp] theorem State.foldLines_left (s : State) :
    s.foldLines.left = Line.ofChain (anyChain s.draws 0) := rfl
@[simp] theorem State.foldLines_right (s : State) :
    s.foldLines.right = Line.ofChain (anyChain s.draws 5) := rfl
@[simp] theorem State.foldLines_x (s : State) :
    s.foldLines.x = s.x := rfl
@[simp] theorem State.foldLines_len (s : State) :
    s.foldLines.len = s.len := rfl
@[simp] theorem State.foldLines_p (s : State) :
    s.foldLines.p = s.p := rfl
@[simp] theorem State.foldLines_j (s : State) :
    s.foldLines.j = s.j := rfl
@[simp] theorem State.foldLines_opl (s : State) :
    s.foldLines.opl = s.opl := rfl
@[simp] theorem State.foldLines_ret (s : State) :
    s.foldLines.ret = s.ret := rfl
@[simp] theorem State.foldLines_seq (s : State) :
    s.foldLines.seq = s.seq := rfl
@[simp] theorem State.foldLines_payload (s : State) :
    s.foldLines.payload = s.payload := rfl
@[simp] theorem State.foldLines_response (s : State) :
    s.foldLines.response = s.response := rfl
@[simp] theorem State.foldLines_pending (s : State) :
    s.foldLines.pending = s.pending := rfl
@[simp] theorem State.foldLines_rstIn (s : State) :
    s.foldLines.rstIn = s.rstIn := rfl
@[simp] theorem State.foldLines_grain (s : State) :
    s.foldLines.grain = s.grain := rfl
@[simp] theorem State.foldLines_draws (s : State) :
    s.foldLines.draws = s.draws + 1 := rfl

/-! `State.loadIv`. -/

@[simp] theorem State.loadIv_h (s : State) :
    s.loadIv.h = Rom.iv := rfl
@[simp] theorem State.loadIv_total (s : State) :
    s.loadIv.total = 0#64 := rfl
@[simp] theorem State.loadIv_buf (s : State) :
    s.loadIv.buf = s.buf := rfl
@[simp] theorem State.loadIv_phase (s : State) :
    s.loadIv.phase = s.phase := rfl
@[simp] theorem State.loadIv_err (s : State) :
    s.loadIv.err = s.err := rfl
@[simp] theorem State.loadIv_dout (s : State) :
    s.loadIv.dout = s.dout := rfl
@[simp] theorem State.loadIv_left (s : State) :
    s.loadIv.left = s.left := rfl
@[simp] theorem State.loadIv_right (s : State) :
    s.loadIv.right = s.right := rfl
@[simp] theorem State.loadIv_x (s : State) :
    s.loadIv.x = s.x := rfl
@[simp] theorem State.loadIv_len (s : State) :
    s.loadIv.len = s.len := rfl
@[simp] theorem State.loadIv_p (s : State) :
    s.loadIv.p = s.p := rfl
@[simp] theorem State.loadIv_j (s : State) :
    s.loadIv.j = s.j := rfl
@[simp] theorem State.loadIv_opl (s : State) :
    s.loadIv.opl = s.opl := rfl
@[simp] theorem State.loadIv_ret (s : State) :
    s.loadIv.ret = s.ret := rfl
@[simp] theorem State.loadIv_seq (s : State) :
    s.loadIv.seq = s.seq := rfl
@[simp] theorem State.loadIv_payload (s : State) :
    s.loadIv.payload = s.payload := rfl
@[simp] theorem State.loadIv_response (s : State) :
    s.loadIv.response = s.response := rfl
@[simp] theorem State.loadIv_pending (s : State) :
    s.loadIv.pending = s.pending := rfl
@[simp] theorem State.loadIv_rstIn (s : State) :
    s.loadIv.rstIn = s.rstIn := rfl
@[simp] theorem State.loadIv_grain (s : State) :
    s.loadIv.grain = s.grain := rfl
@[simp] theorem State.loadIv_draws (s : State) :
    s.loadIv.draws = s.draws := rfl

/-! `State.createContext`. -/

@[simp] theorem State.createContext_h (s : State) :
    s.createContext.h = Rom.iv := rfl
@[simp] theorem State.createContext_total (s : State) :
    s.createContext.total = 0#64 := rfl
@[simp] theorem State.createContext_buf (s : State) :
    s.createContext.buf = s.buf := rfl
@[simp] theorem State.createContext_phase (s : State) :
    s.createContext.phase = .active := rfl
@[simp] theorem State.createContext_err (s : State) :
    s.createContext.err = s.err := rfl
@[simp] theorem State.createContext_dout (s : State) :
    s.createContext.dout = s.dout := rfl
@[simp] theorem State.createContext_left (s : State) :
    s.createContext.left = s.left := rfl
@[simp] theorem State.createContext_right (s : State) :
    s.createContext.right = s.right := rfl
@[simp] theorem State.createContext_x (s : State) :
    s.createContext.x = s.x := rfl
@[simp] theorem State.createContext_len (s : State) :
    s.createContext.len = s.len := rfl
@[simp] theorem State.createContext_p (s : State) :
    s.createContext.p = s.p := rfl
@[simp] theorem State.createContext_j (s : State) :
    s.createContext.j = s.j := rfl
@[simp] theorem State.createContext_opl (s : State) :
    s.createContext.opl = s.opl := rfl
@[simp] theorem State.createContext_ret (s : State) :
    s.createContext.ret = s.ret := rfl
@[simp] theorem State.createContext_seq (s : State) :
    s.createContext.seq = s.seq := rfl
@[simp] theorem State.createContext_payload (s : State) :
    s.createContext.payload = s.payload := rfl
@[simp] theorem State.createContext_response (s : State) :
    s.createContext.response = s.response := rfl
@[simp] theorem State.createContext_pending (s : State) :
    s.createContext.pending = s.pending := rfl
@[simp] theorem State.createContext_rstIn (s : State) :
    s.createContext.rstIn = s.rstIn := rfl
@[simp] theorem State.createContext_grain (s : State) :
    s.createContext.grain = s.grain := rfl
@[simp] theorem State.createContext_draws (s : State) :
    s.createContext.draws = s.draws := rfl

/-! `State.absorbed`. -/

@[simp] theorem State.absorbed_h (s : State) (b : Byte) (rest : List Byte) :
    (s.absorbed b rest).h = s.h := rfl
@[simp] theorem State.absorbed_total (s : State) (b : Byte) (rest : List Byte) :
    (s.absorbed b rest).total = addTotal s.total 1 := rfl
@[simp] theorem State.absorbed_buf (s : State) (b : Byte) (rest : List Byte) :
    (s.absorbed b rest).buf = s.buf.write s.count b := rfl
@[simp] theorem State.absorbed_phase (s : State) (b : Byte) (rest : List Byte) :
    (s.absorbed b rest).phase = s.phase := rfl
@[simp] theorem State.absorbed_err (s : State) (b : Byte) (rest : List Byte) :
    (s.absorbed b rest).err = s.err := rfl
@[simp] theorem State.absorbed_dout (s : State) (b : Byte) (rest : List Byte) :
    (s.absorbed b rest).dout = s.dout := rfl
@[simp] theorem State.absorbed_left (s : State) (b : Byte) (rest : List Byte) :
    (s.absorbed b rest).left = s.left := rfl
@[simp] theorem State.absorbed_right (s : State) (b : Byte) (rest : List Byte) :
    (s.absorbed b rest).right = s.right := rfl
@[simp] theorem State.absorbed_x (s : State) (b : Byte) (rest : List Byte) :
    (s.absorbed b rest).x = s.x := rfl
@[simp] theorem State.absorbed_len (s : State) (b : Byte) (rest : List Byte) :
    (s.absorbed b rest).len = s.len := rfl
@[simp] theorem State.absorbed_p (s : State) (b : Byte) (rest : List Byte) :
    (s.absorbed b rest).p = s.p := rfl
@[simp] theorem State.absorbed_j (s : State) (b : Byte) (rest : List Byte) :
    (s.absorbed b rest).j = s.j := rfl
@[simp] theorem State.absorbed_opl (s : State) (b : Byte) (rest : List Byte) :
    (s.absorbed b rest).opl = s.opl := rfl
@[simp] theorem State.absorbed_ret (s : State) (b : Byte) (rest : List Byte) :
    (s.absorbed b rest).ret = s.ret := rfl
@[simp] theorem State.absorbed_seq (s : State) (b : Byte) (rest : List Byte) :
    (s.absorbed b rest).seq = s.seq := rfl
@[simp] theorem State.absorbed_payload (s : State) (b : Byte) (rest : List Byte) :
    (s.absorbed b rest).payload = rest := rfl
@[simp] theorem State.absorbed_response (s : State) (b : Byte) (rest : List Byte) :
    (s.absorbed b rest).response = s.response := rfl
@[simp] theorem State.absorbed_pending (s : State) (b : Byte) (rest : List Byte) :
    (s.absorbed b rest).pending = s.pending := rfl
@[simp] theorem State.absorbed_rstIn (s : State) (b : Byte) (rest : List Byte) :
    (s.absorbed b rest).rstIn = s.rstIn := rfl
@[simp] theorem State.absorbed_grain (s : State) (b : Byte) (rest : List Byte) :
    (s.absorbed b rest).grain = s.grain := rfl
@[simp] theorem State.absorbed_draws (s : State) (b : Byte) (rest : List Byte) :
    (s.absorbed b rest).draws = s.draws := rfl

/-! `State.appendBytes`. -/

@[simp] theorem State.appendBytes_h (s : State) (data : List Byte) :
    (s.appendBytes data).h = compressBlocks ((s.buf.readBytes 0 s.count ++ data).length / 64) (s.buf.readBytes 0 s.count ++ data) s.h := by simp only [State.appendBytes]
@[simp] theorem State.appendBytes_total (s : State) (data : List Byte) :
    (s.appendBytes data).total = addTotal s.total data.length := by simp only [State.appendBytes]
@[simp] theorem State.appendBytes_buf (s : State) (data : List Byte) :
    (s.appendBytes data).buf = s.buf.writeBytes 0
      ((s.buf.readBytes 0 s.count ++ data).drop (64 * ((s.buf.readBytes 0 s.count ++ data).length / 64))) := by simp only [State.appendBytes]
@[simp] theorem State.appendBytes_phase (s : State) (data : List Byte) :
    (s.appendBytes data).phase = s.phase := by simp only [State.appendBytes]
@[simp] theorem State.appendBytes_err (s : State) (data : List Byte) :
    (s.appendBytes data).err = s.err := by simp only [State.appendBytes]
@[simp] theorem State.appendBytes_dout (s : State) (data : List Byte) :
    (s.appendBytes data).dout = s.dout := by simp only [State.appendBytes]
@[simp] theorem State.appendBytes_left (s : State) (data : List Byte) :
    (s.appendBytes data).left = s.left := by simp only [State.appendBytes]
@[simp] theorem State.appendBytes_right (s : State) (data : List Byte) :
    (s.appendBytes data).right = s.right := by simp only [State.appendBytes]
@[simp] theorem State.appendBytes_x (s : State) (data : List Byte) :
    (s.appendBytes data).x = s.x := by simp only [State.appendBytes]
@[simp] theorem State.appendBytes_len (s : State) (data : List Byte) :
    (s.appendBytes data).len = s.len := by simp only [State.appendBytes]
@[simp] theorem State.appendBytes_p (s : State) (data : List Byte) :
    (s.appendBytes data).p = s.p := by simp only [State.appendBytes]
@[simp] theorem State.appendBytes_j (s : State) (data : List Byte) :
    (s.appendBytes data).j = s.j := by simp only [State.appendBytes]
@[simp] theorem State.appendBytes_opl (s : State) (data : List Byte) :
    (s.appendBytes data).opl = s.opl := by simp only [State.appendBytes]
@[simp] theorem State.appendBytes_ret (s : State) (data : List Byte) :
    (s.appendBytes data).ret = s.ret := by simp only [State.appendBytes]
@[simp] theorem State.appendBytes_seq (s : State) (data : List Byte) :
    (s.appendBytes data).seq = s.seq := by simp only [State.appendBytes]
@[simp] theorem State.appendBytes_payload (s : State) (data : List Byte) :
    (s.appendBytes data).payload = s.payload := by simp only [State.appendBytes]
@[simp] theorem State.appendBytes_response (s : State) (data : List Byte) :
    (s.appendBytes data).response = s.response := by simp only [State.appendBytes]
@[simp] theorem State.appendBytes_pending (s : State) (data : List Byte) :
    (s.appendBytes data).pending = s.pending := by simp only [State.appendBytes]
@[simp] theorem State.appendBytes_rstIn (s : State) (data : List Byte) :
    (s.appendBytes data).rstIn = s.rstIn := by simp only [State.appendBytes]
@[simp] theorem State.appendBytes_grain (s : State) (data : List Byte) :
    (s.appendBytes data).grain = s.grain := by simp only [State.appendBytes]
@[simp] theorem State.appendBytes_draws (s : State) (data : List Byte) :
    (s.appendBytes data).draws = s.draws + (s.buf.readBytes 0 s.count ++ data).length / 64 := by simp only [State.appendBytes]

/-! `State.computeDigest`. -/

@[simp] theorem State.computeDigest_h (s : State) :
    s.computeDigest.h = s.h := by simp only [State.computeDigest]
@[simp] theorem State.computeDigest_total (s : State) :
    s.computeDigest.total = s.total := by simp only [State.computeDigest]
@[simp] theorem State.computeDigest_buf (s : State) :
    s.computeDigest.buf = s.buf := by simp only [State.computeDigest]
@[simp] theorem State.computeDigest_phase (s : State) :
    s.computeDigest.phase = s.phase := by simp only [State.computeDigest]
@[simp] theorem State.computeDigest_err (s : State) :
    s.computeDigest.err = s.err := by simp only [State.computeDigest]
@[simp] theorem State.computeDigest_dout (s : State) :
    s.computeDigest.dout = Memory.ofBytes (serialise (compressBlocks
      ((padTail (s.buf.readBytes 0 s.count) s.total).length / 64) (padTail (s.buf.readBytes 0 s.count) s.total) s.h)) := by simp only [State.computeDigest]
@[simp] theorem State.computeDigest_left (s : State) :
    s.computeDigest.left = s.left := by simp only [State.computeDigest]
@[simp] theorem State.computeDigest_right (s : State) :
    s.computeDigest.right = s.right := by simp only [State.computeDigest]
@[simp] theorem State.computeDigest_x (s : State) :
    s.computeDigest.x = s.x := by simp only [State.computeDigest]
@[simp] theorem State.computeDigest_len (s : State) :
    s.computeDigest.len = s.len := by simp only [State.computeDigest]
@[simp] theorem State.computeDigest_p (s : State) :
    s.computeDigest.p = s.p := by simp only [State.computeDigest]
@[simp] theorem State.computeDigest_j (s : State) :
    s.computeDigest.j = s.j := by simp only [State.computeDigest]
@[simp] theorem State.computeDigest_opl (s : State) :
    s.computeDigest.opl = s.opl := by simp only [State.computeDigest]
@[simp] theorem State.computeDigest_ret (s : State) :
    s.computeDigest.ret = s.ret := by simp only [State.computeDigest]
@[simp] theorem State.computeDigest_seq (s : State) :
    s.computeDigest.seq = s.seq := by simp only [State.computeDigest]
@[simp] theorem State.computeDigest_payload (s : State) :
    s.computeDigest.payload = s.payload := by simp only [State.computeDigest]
@[simp] theorem State.computeDigest_response (s : State) :
    s.computeDigest.response = s.response := by simp only [State.computeDigest]
@[simp] theorem State.computeDigest_pending (s : State) :
    s.computeDigest.pending = s.pending := by simp only [State.computeDigest]
@[simp] theorem State.computeDigest_rstIn (s : State) :
    s.computeDigest.rstIn = s.rstIn := by simp only [State.computeDigest]
@[simp] theorem State.computeDigest_grain (s : State) :
    s.computeDigest.grain = s.grain := by simp only [State.computeDigest]
@[simp] theorem State.computeDigest_draws (s : State) :
    s.computeDigest.draws = s.draws + (padTail (s.buf.readBytes 0 s.count) s.total).length / 64 := by simp only [State.computeDigest]

/-! `State.padByte`. -/

@[simp] theorem State.padByte_h (s : State) (b : Byte) :
    (s.padByte b).h = s.h := rfl
@[simp] theorem State.padByte_total (s : State) (b : Byte) :
    (s.padByte b).total = s.total := rfl
@[simp] theorem State.padByte_buf (s : State) (b : Byte) :
    (s.padByte b).buf = s.buf.write s.p.toNat b := rfl
@[simp] theorem State.padByte_phase (s : State) (b : Byte) :
    (s.padByte b).phase = s.phase := rfl
@[simp] theorem State.padByte_err (s : State) (b : Byte) :
    (s.padByte b).err = s.err := rfl
@[simp] theorem State.padByte_dout (s : State) (b : Byte) :
    (s.padByte b).dout = s.dout := rfl
@[simp] theorem State.padByte_left (s : State) (b : Byte) :
    (s.padByte b).left = s.left := rfl
@[simp] theorem State.padByte_right (s : State) (b : Byte) :
    (s.padByte b).right = s.right := rfl
@[simp] theorem State.padByte_x (s : State) (b : Byte) :
    (s.padByte b).x = s.x := rfl
@[simp] theorem State.padByte_len (s : State) (b : Byte) :
    (s.padByte b).len = s.len := rfl
@[simp] theorem State.padByte_p (s : State) (b : Byte) :
    (s.padByte b).p = s.p + 1#7 := rfl
@[simp] theorem State.padByte_j (s : State) (b : Byte) :
    (s.padByte b).j = s.j := rfl
@[simp] theorem State.padByte_opl (s : State) (b : Byte) :
    (s.padByte b).opl = s.opl := rfl
@[simp] theorem State.padByte_ret (s : State) (b : Byte) :
    (s.padByte b).ret = s.ret := rfl
@[simp] theorem State.padByte_seq (s : State) (b : Byte) :
    (s.padByte b).seq = s.seq := rfl
@[simp] theorem State.padByte_payload (s : State) (b : Byte) :
    (s.padByte b).payload = s.payload := rfl
@[simp] theorem State.padByte_response (s : State) (b : Byte) :
    (s.padByte b).response = s.response := rfl
@[simp] theorem State.padByte_pending (s : State) (b : Byte) :
    (s.padByte b).pending = s.pending := rfl
@[simp] theorem State.padByte_rstIn (s : State) (b : Byte) :
    (s.padByte b).rstIn = s.rstIn := rfl
@[simp] theorem State.padByte_grain (s : State) (b : Byte) :
    (s.padByte b).grain = s.grain := rfl
@[simp] theorem State.padByte_draws (s : State) (b : Byte) :
    (s.padByte b).draws = s.draws := rfl

/-! `State.resetEvent`. -/

@[simp] theorem State.resetEvent_h (s : State) :
    s.resetEvent.h = anyChain s.draws 40 := rfl
@[simp] theorem State.resetEvent_total (s : State) :
    s.resetEvent.total = anyBits s.draws 64 45 := rfl
@[simp] theorem State.resetEvent_buf (s : State) :
    s.resetEvent.buf = Memory.ofBytes (anyBytes s.draws 64 64) := by simp only [State.resetEvent, State.anyContext, State.anyTransients]
@[simp] theorem State.resetEvent_phase (s : State) :
    s.resetEvent.phase = .uninit := rfl
@[simp] theorem State.resetEvent_err (s : State) :
    s.resetEvent.err = false := rfl
@[simp] theorem State.resetEvent_dout (s : State) :
    s.resetEvent.dout = Memory.ofBytes (anyBytes s.draws 128 20) := by simp only [State.resetEvent, State.anyContext, State.anyTransients]
@[simp] theorem State.resetEvent_left (s : State) :
    s.resetEvent.left = Line.ofChain (anyChain s.draws 0) := rfl
@[simp] theorem State.resetEvent_right (s : State) :
    s.resetEvent.right = Line.ofChain (anyChain s.draws 5) := rfl
@[simp] theorem State.resetEvent_x (s : State) :
    s.resetEvent.x = anyWords s.draws 10 := rfl
@[simp] theorem State.resetEvent_len (s : State) :
    s.resetEvent.len = anyBits s.draws 64 26 := rfl
@[simp] theorem State.resetEvent_p (s : State) :
    s.resetEvent.p = anyBits s.draws 7 27 := rfl
@[simp] theorem State.resetEvent_j (s : State) :
    s.resetEvent.j = anyBits s.draws 7 28 := rfl
@[simp] theorem State.resetEvent_opl (s : State) :
    s.resetEvent.opl = Op.ofBits (anyBits s.draws 2 29) := rfl
@[simp] theorem State.resetEvent_ret (s : State) :
    s.resetEvent.ret = Ret.ofBits (anyBits s.draws 2 30) := rfl
@[simp] theorem State.resetEvent_seq (s : State) :
    s.resetEvent.seq = SeqCode.idle := rfl
@[simp] theorem State.resetEvent_payload (s : State) :
    s.resetEvent.payload = [] := rfl
@[simp] theorem State.resetEvent_response (s : State) :
    s.resetEvent.response = none := rfl
@[simp] theorem State.resetEvent_pending (s : State) :
    s.resetEvent.pending = s.pending := rfl
@[simp] theorem State.resetEvent_rstIn (s : State) :
    s.resetEvent.rstIn = s.rstIn.tail := rfl
@[simp] theorem State.resetEvent_grain (s : State) :
    s.resetEvent.grain = s.grain := rfl
@[simp] theorem State.resetEvent_draws (s : State) :
    s.resetEvent.draws = s.draws + 1 := rfl

/-! Views. -/

@[simp] theorem State.count_lt (s : State) : s.count < 64 := Nat.mod_lt _ (by decide)

@[simp] theorem State.respond_count (s : State) (code : RspCode) (digest : Option (List Byte)) :
    (s.respond code digest).count = s.count := rfl

@[simp] theorem State.retire_count (s : State) : s.retire.count = s.count := rfl

@[simp] theorem State.anyTail_count (s : State) : s.anyTail.count = s.count := rfl

@[simp] theorem State.finishUpdate_count (s : State) : s.finishUpdate.count = s.count := rfl

@[simp] theorem State.foldLines_count (s : State) : s.foldLines.count = s.count := rfl

@[simp] theorem State.createContext_count (s : State) : s.createContext.count = 0 := rfl

/-! `State.whenIdle`, `State.admitted`. -/

theorem State.whenIdle_of_idle {s : State} (h : s.seq = SeqCode.idle) (effect : State) :
    s.whenIdle effect = effect := if_pos h

theorem State.whenIdle_of_busy {s : State} (h : s.seq ≠ SeqCode.idle) (effect : State) :
    s.whenIdle effect = s := if_neg h

theorem State.admitted_active {s : State} (h : s.phase = .active) (effect : State) :
    s.admitted effect = effect := by simp [State.admitted, h, Phase.refusal]

theorem State.admitted_refused {s : State} {code : RspCode} (h : s.phase.refusal = some code) (effect : State) :
    s.admitted effect = s.protocolError code := by simp [State.admitted, h]

end Sys2Proof.Machine
end

