-- ==== Sys2Proof/Laws/Memory.lean ====
section
/-! SUPPORT. The laws of the byte-addressed spaces: a read after a write, the bytes of a run of addresses, and the
canonical form, which every operation keeps. -/

namespace Sys2Proof.Machine

/-! One byte. -/

theorem Memory.read_below {lo a : Nat} {m : Memory} (hm : Memory.rising lo m = true) (ha : a < lo) :
    m.read a = Config.unlistedByte := by
  induction m generalizing lo with
  | nil => rfl
  | cons cell rest ih =>
    obtain ⟨c, b⟩ := cell
    simp only [Memory.rising, Bool.and_eq_true, decide_eq_true_eq] at hm
    have hne : c ≠ a := by omega
    simp only [Memory.read, if_neg hne]
    exact ih hm.2 (by omega)

theorem Memory.read_write_ne (m : Memory) {a b : Nat} (v : Byte) (h : b ≠ a) :
    (m.write a v).read b = m.read b := by
  induction m with
  | nil =>
    simp only [Memory.write]
    split
    · rfl
    · simp [Memory.read, h.symm]
  | cons cell rest ih =>
    obtain ⟨c, w⟩ := cell
    simp only [Memory.write]
    split
    · simp only [Memory.read]
      split
      · rfl
      · exact ih
    · split
      · subst_vars
        split
        · simp [Memory.read, h.symm]
        · simp [Memory.read, h.symm]
      · split
        · rfl
        · simp [Memory.read, h.symm]

theorem Memory.read_write_same {lo : Nat} {m : Memory} (hm : Memory.rising lo m = true) (a : Nat) (v : Byte) :
    (m.write a v).read a = v := by
  induction m generalizing lo with
  | nil =>
    simp only [Memory.write]
    split
    · simp_all [Memory.read]
    · simp [Memory.read]
  | cons cell rest ih =>
    obtain ⟨c, w⟩ := cell
    simp only [Memory.rising, Bool.and_eq_true, decide_eq_true_eq] at hm
    simp only [Memory.write]
    split
    · have hne : c ≠ a := by omega
      simp only [Memory.read, if_neg hne]
      exact ih hm.2
    · split
      · subst_vars
        split
        · rw [Memory.read_below hm.2 (Nat.lt_succ_self _)]
          simp_all
        · simp [Memory.read]
      · have hlt : a < c := by omega
        have hne : c ≠ a := by omega
        split
        · simp only [Memory.read, if_neg hne]
          rw [Memory.read_below hm.2 (by omega)]
          simp_all
        · simp [Memory.read]

/-! The canonical form. -/

theorem Memory.rising_mono {lo lo' : Nat} {m : Memory} (h : lo' ≤ lo) (hm : Memory.rising lo m = true) :
    Memory.rising lo' m = true := by
  cases m with
  | nil => rfl
  | cons cell rest =>
    simp only [Memory.rising, Bool.and_eq_true, decide_eq_true_eq] at hm ⊢
    exact ⟨by omega, hm.2⟩

theorem Memory.rising_write {lo : Nat} {m : Memory} (hm : Memory.rising lo m = true) {a : Nat} (ha : lo ≤ a)
    (v : Byte) : Memory.rising lo (m.write a v) = true := by
  induction m generalizing lo with
  | nil =>
    simp only [Memory.write]
    split <;> simp [Memory.rising, ha]
  | cons cell rest ih =>
    obtain ⟨c, w⟩ := cell
    simp only [Memory.rising, Bool.and_eq_true, decide_eq_true_eq] at hm
    simp only [Memory.write]
    split
    · simp only [Memory.rising, Bool.and_eq_true, decide_eq_true_eq]
      exact ⟨hm.1, ih hm.2 (by omega)⟩
    · split
      · subst_vars
        split
        · exact Memory.rising_mono (by omega) hm.2
        · simp [Memory.rising, ha, hm.2]
      · split
        · simp [Memory.rising, hm.1, hm.2]
        · simp only [Memory.rising, Bool.and_eq_true, decide_eq_true_eq]
          exact ⟨ha, by omega, hm.2⟩

theorem Memory.mem_write {m : Memory} {a : Nat} {v : Byte} {cell : Host.Cell} (h : cell ∈ m.write a v) :
    cell ∈ m ∨ (cell = (a, v) ∧ v ≠ Config.unlistedByte) := by
  induction m with
  | nil =>
    simp only [Memory.write] at h
    split at h
    · simp at h
    · simp_all
  | cons c rest ih =>
    obtain ⟨c, w⟩ := c
    simp only [Memory.write] at h
    split at h
    · rcases List.mem_cons.mp h with rfl | h
      · simp
      · rcases ih h with h | h
        · exact .inl (List.mem_cons_of_mem _ h)
        · exact .inr h
    · split at h
      · split at h
        · exact .inl (List.mem_cons_of_mem _ h)
        · rcases List.mem_cons.mp h with rfl | h
          · exact .inr ⟨rfl, ‹_›⟩
          · exact .inl (List.mem_cons_of_mem _ h)
      · split at h
        · exact .inl h
        · rcases List.mem_cons.mp h with rfl | h
          · exact .inr ⟨rfl, ‹_›⟩
          · exact .inl h

theorem Memory.wf_iff (size : Nat) (m : Memory) :
    m.wf size = true ↔
      Memory.rising 0 m = true ∧ ∀ cell ∈ m, cell.1 < size ∧ cell.2 ≠ Config.unlistedByte := by
  simp [Memory.wf]

theorem Memory.wf_nil (size : Nat) : Memory.wf size [] = true := rfl

theorem Memory.wf_rising {size : Nat} {m : Memory} (h : m.wf size = true) : Memory.rising 0 m = true :=
  ((Memory.wf_iff size m).mp h).1

theorem Memory.wf_write {size : Nat} {m : Memory} (h : m.wf size = true) {a : Nat} (ha : a < size) (v : Byte) :
    (m.write a v).wf size = true := by
  obtain ⟨hr, hc⟩ := (Memory.wf_iff size m).mp h
  refine (Memory.wf_iff size _).mpr ⟨Memory.rising_write hr (Nat.zero_le _) v, fun cell hcell => ?_⟩
  rcases Memory.mem_write hcell with h | ⟨rfl, hv⟩
  · exact hc cell h
  · exact ⟨ha, hv⟩

theorem Memory.read_outside {size : Nat} {m : Memory} (h : m.wf size = true) {a : Nat} (ha : size ≤ a) :
    m.read a = Config.unlistedByte := by
  obtain ⟨-, hc⟩ := (Memory.wf_iff size m).mp h
  clear h
  induction m with
  | nil => rfl
  | cons cell rest ih =>
    obtain ⟨c, b⟩ := cell
    have hlt : c < size := (hc (c, b) (by simp)).1
    have hne : c ≠ a := by omega
    simp only [Memory.read, if_neg hne]
    exact ih (fun cell hcell => hc cell (List.mem_cons_of_mem _ hcell))

/-! Runs of bytes. -/

@[simp] theorem Memory.length_readBytes (m : Memory) (a n : Nat) : (m.readBytes a n).length = n := by
  induction n generalizing a with
  | zero => rfl
  | succ n ih => simp [Memory.readBytes, ih]

theorem Memory.getElem?_readBytes (m : Memory) (a n i : Nat) :
    (m.readBytes a n)[i]? = if i < n then some (m.read (a + i)) else none := by
  induction n generalizing a i with
  | zero => simp [Memory.readBytes]
  | succ n ih =>
    cases i with
    | zero => simp [Memory.readBytes]
    | succ i =>
      simp only [Memory.readBytes, List.getElem?_cons_succ, ih, Nat.add_lt_add_iff_right]
      rw [show a + 1 + i = a + (i + 1) by omega]

theorem Memory.getElem_readBytes (m : Memory) (a n i : Nat) (h : i < (m.readBytes a n).length) :
    (m.readBytes a n)[i] = m.read (a + i) := by
  have := Memory.getElem?_readBytes m a n i
  rw [List.getElem?_eq_getElem h, if_pos (by simpa using h)] at this
  exact Option.some.inj this

theorem Memory.wf_writeBytes {size : Nat} {m : Memory} (h : m.wf size = true) {a : Nat} {bs : List Byte}
    (ha : a + bs.length ≤ size) : (m.writeBytes a bs).wf size = true := by
  induction bs generalizing m a with
  | nil => exact h
  | cons b bs ih =>
    simp only [List.length_cons] at ha
    exact ih (Memory.wf_write h (by omega) b) (by omega)

theorem Memory.rising_writeBytes {m : Memory} (h : Memory.rising 0 m = true) (a : Nat) (bs : List Byte) :
    Memory.rising 0 (m.writeBytes a bs) = true := by
  induction bs generalizing m a with
  | nil => exact h
  | cons b bs ih => exact ih (Memory.rising_write h (Nat.zero_le _) b) (a + 1)

theorem Memory.read_writeBytes_outside (m : Memory) {a : Nat} {bs : List Byte} {b : Nat}
    (h : b < a ∨ a + bs.length ≤ b) : (m.writeBytes a bs).read b = m.read b := by
  induction bs generalizing m a with
  | nil => rfl
  | cons v bs ih =>
    simp only [List.length_cons] at h
    simp only [Memory.writeBytes]
    rw [ih _ (by omega), Memory.read_write_ne _ _ (by omega)]

theorem Memory.read_writeBytes_inside {m : Memory} (hm : Memory.rising 0 m = true) (a : Nat) (bs : List Byte) (i : Nat)
    (h : i < bs.length) : (m.writeBytes a bs).read (a + i) = bs[i] := by
  induction bs generalizing m a i with
  | nil => simp at h
  | cons v bs ih =>
    simp only [Memory.writeBytes]
    cases i with
    | zero =>
      rw [Memory.read_writeBytes_outside _ (by omega)]
      exact Memory.read_write_same hm _ _
    | succ i =>
      simp only [List.length_cons, Nat.add_lt_add_iff_right] at h
      have := ih (Memory.rising_write hm (Nat.zero_le a) v) (a + 1) i h
      rw [show a + 1 + i = a + (i + 1) by omega] at this
      simpa using this

theorem Memory.wf_ofBytes {size : Nat} {bs : List Byte} (h : bs.length ≤ size) : (Memory.ofBytes bs).wf size = true :=
  Memory.wf_writeBytes (Memory.wf_nil size) (by omega)

theorem Memory.read_ofBytes (bs : List Byte) (i : Nat) (h : i < bs.length) : (Memory.ofBytes bs).read i = bs[i] := by
  have := Memory.read_writeBytes_inside (m := []) rfl 0 bs i h
  simpa [Memory.ofBytes] using this

/-- Reading back what was written over a whole run. -/
theorem Memory.readBytes_ofBytes (bs : List Byte) (n : Nat) (h : n ≤ bs.length) :
    (Memory.ofBytes bs).readBytes 0 n = bs.take n := by
  apply List.ext_getElem
  · simp [h]
  · intro i h1 h2
    rw [Memory.getElem_readBytes]
    simp only [Memory.length_readBytes] at h1
    simp only [Nat.zero_add, List.getElem_take]
    exact Memory.read_ofBytes bs i (by omega)

/-- Two runs agree where the bytes do. -/
theorem Memory.readBytes_congr {m m' : Memory} {a n : Nat} (h : ∀ i < n, m.read (a + i) = m'.read (a + i)) :
    m.readBytes a n = m'.readBytes a n := by
  apply List.ext_getElem
  · simp
  · intro i h1 h2
    simp only [Memory.length_readBytes] at h1
    rw [Memory.getElem_readBytes, Memory.getElem_readBytes, h i h1]

@[simp] theorem length_anyBytes (draw slot n : Nat) : (anyBytes draw slot n).length = n := by
  induction n generalizing slot with
  | zero => rfl
  | succ n ih => simp [anyBytes, ih]

/-! The canonical form through the shared operations. -/

theorem State.wf_anyTail (s : State) : s.anyTail.buf.wf 64 = true := by
  have := s.count_lt
  exact Memory.wf_ofBytes (by simp; omega)

theorem State.wf_anyContext (s : State) : s.anyContext.buf.wf 64 = true := by
  rw [State.anyContext_buf]
  exact Memory.wf_ofBytes (by simp)

theorem State.wf_finishUpdate (s : State) : s.finishUpdate.buf.wf 64 = true := s.wf_anyTail

theorem State.wf_finishFinal (s : State) : s.finishFinal.buf.wf 64 = true := by
  rw [State.finishFinal_buf]
  exact Memory.wf_ofBytes (by simp)

theorem State.wf_resetEvent_buf (s : State) : s.resetEvent.buf.wf 64 = true := by
  rw [State.resetEvent_buf]
  exact Memory.wf_ofBytes (by simp)

theorem State.wf_resetEvent_dout (s : State) : s.resetEvent.dout.wf 20 = true := by
  rw [State.resetEvent_dout]
  exact Memory.wf_ofBytes (by simp)

theorem State.wf_padByte {s : State} (h : s.buf.wf 64 = true) (hp : s.p.toNat ≤ 63) (b : Byte) :
    (s.padByte b).buf.wf 64 = true :=
  Memory.wf_write h (by omega) b

/-- `BUF[0..n-1]` is kept when the rest is left open. -/
theorem State.readBytes_anyTail (s : State) : s.anyTail.buf.readBytes 0 s.count = s.buf.readBytes 0 s.count := by
  have := s.count_lt
  rw [State.anyTail_buf, Memory.readBytes_ofBytes _ _ (by simp)]
  simp

theorem State.readBytes_finishUpdate (s : State) :
    s.finishUpdate.buf.readBytes 0 s.count = s.buf.readBytes 0 s.count := s.readBytes_anyTail

/-- The same, one byte at a time. -/
theorem State.read_finishUpdate (s : State) {i : Nat} (h : i < s.count) :
    s.finishUpdate.buf.read i = s.buf.read i := by
  have hb := congrArg (fun l => l[i]?) s.readBytes_finishUpdate
  simp only [Memory.getElem?_readBytes, if_pos h, Nat.zero_add, Option.some.injEq] at hb
  exact hb

@[simp] theorem length_serialise (h : Chain) : (serialise h).length = 20 := by
  simp [serialise, le32Bytes]

/-- `DOUT` holds a serialised chaining value. -/
theorem digest_serialise (s : State) (h : Chain) :
    ({ s with dout := Memory.ofBytes (serialise h) } : State).digest = serialise h := by
  simp [State.digest, Memory.readBytes_ofBytes]

theorem wf_serialise (h : Chain) : (Memory.ofBytes (serialise h)).wf 20 = true :=
  Memory.wf_ofBytes (by simp)

theorem reset_memories_wf : State.reset.buf.wf 64 = true ∧ State.reset.dout.wf 20 = true := ⟨rfl, rfl⟩

end Sys2Proof.Machine
end

