-- ==== Sys2Proof/Laws/Compress.lean ====
section
/-! SUPPORT. The laws of the compression function and of its fold over blocks. -/

namespace Sys2Proof.Machine

@[simp] theorem compressBlocks_zero (bytes : List Byte) (h : Chain) : compressBlocks 0 bytes h = h := by
  simp only [compressBlocks, splitBlocks, List.foldl_nil]

theorem compressBlocks_succ (q : Nat) (bytes : List Byte) (h : Chain) :
    compressBlocks (q + 1) bytes h = compressBlocks q (bytes.drop 64) (compress h (bytes.take 64)) := by
  simp only [compressBlocks, splitBlocks, List.foldl_cons]

/-- Blocks are compressed in order: the first `p`, then the next `q`. -/
theorem compressBlocks_add (p q : Nat) (bytes : List Byte) (h : Chain) :
    compressBlocks (p + q) bytes h = compressBlocks q (bytes.drop (64 * p)) (compressBlocks p bytes h) := by
  induction p generalizing bytes h with
  | zero => simp
  | succ p ih =>
    rw [show p + 1 + q = p + q + 1 by omega, compressBlocks_succ, ih, compressBlocks_succ, List.drop_drop,
      show 64 + 64 * p = 64 * (p + 1) by omega]

/-- Bytes beyond the last full block do not count. -/
theorem compressBlocks_append {q : Nat} {front : List Byte} (hq : 64 * q ≤ front.length) (back : List Byte) (h : Chain) :
    compressBlocks q (front ++ back) h = compressBlocks q front h := by
  induction q generalizing front h with
  | zero => rfl
  | succ q ih =>
    rw [compressBlocks_succ, compressBlocks_succ, List.drop_append_of_le_length (by omega),
      List.take_append_of_le_length (by omega), ih (by simp; omega)]

/-- One block. -/
theorem compressBlocks_one (bytes : List Byte) (h : Chain) :
    compressBlocks 1 bytes h = compress h (bytes.take 64) := by
  rw [compressBlocks_succ, compressBlocks_zero]

/-- The message words depend only on the 64 bytes of the block. -/
theorem messageWords_congr {f g : Nat → Byte} (h : ∀ i < 64, f i = g i) : messageWords f = messageWords g := by
  have hw : ∀ i < 16, messageWord f i = messageWord g i := fun i hi => by
    simp only [messageWord, h (4 * i) (by omega), h (4 * i + 1) (by omega), h (4 * i + 2) (by omega),
      h (4 * i + 3) (by omega)]
  simp only [messageWords, hw 0 (by omega), hw 1 (by omega), hw 2 (by omega), hw 3 (by omega), hw 4 (by omega),
    hw 5 (by omega), hw 6 (by omega), hw 7 (by omega), hw 8 (by omega), hw 9 (by omega), hw 10 (by omega),
    hw 11 (by omega), hw 12 (by omega), hw 13 (by omega), hw 14 (by omega), hw 15 (by omega)]

/-- Compressing what `BUF` holds is compressing the message words `LOAD` reads from it. -/
theorem compress_readBytes (h : Chain) (m : Memory) :
    compress h (m.readBytes 0 64) = compressWords h (messageWords m.read) := by
  unfold compress
  refine congrArg (compressWords h) (messageWords_congr fun i hi => ?_)
  rw [List.getD_eq_getElem?_getD, Memory.getElem?_readBytes, if_pos hi, Option.getD_some, Nat.zero_add]

@[simp] theorem leftRounds_zero (x : Vector Word 16) (l : Line) : leftRounds x l 0 = l := rfl

@[simp] theorem rightRounds_zero (x : Vector Word 16) (l : Line) : rightRounds x l 0 = l := rfl

theorem leftRounds_succ (x : Vector Word 16) (l : Line) (n : Nat) :
    leftRounds x l (n + 1) = roundLeft x n (leftRounds x l n) := rfl

theorem rightRounds_succ (x : Vector Word 16) (r : Line) (n : Nat) :
    rightRounds x r (n + 1) = roundRight x n (rightRounds x r n) := rfl

@[simp] theorem length_zeros (k : Nat) : (zeros k).length = k := by simp [zeros]

@[simp] theorem length_le64 (v : BitVec 64) : (le64 v).length = 8 := rfl

/-- The tail of `FINAL` is one block, or two (43_final.md R160). -/
theorem length_padTail (buffered : List Byte) (total : BitVec 64) (h : buffered.length < 64) :
    (padTail buffered total).length = if buffered.length ≤ 55 then 64 else 128 := by
  simp only [padTail, List.length_append, length_zeros, length_le64, List.length_singleton]
  split <;> omega

end Sys2Proof.Machine
end

