-- ==== Sys2Proof/Laws/Ops.lean ====
section
/-! SUPPORT. What each shared operation and one step can do, said once: a proof cites these instead of unfolding. -/

namespace Sys2Proof.Machine

/-- Everything `afterPayload` can answer. -/
theorem State.afterPayload_cases (s : State) (here : BitVec 4) :
    (s.payload ≠ [] ∧ s.afterPayload here = .next { s with seq := SeqCode.absorb }) ∨
    (s.payload = [] ∧ s.opl = .update ∧ s.afterPayload here = .next s.finishUpdate) ∨
    (s.payload = [] ∧ s.opl = .hash ∧ s.afterPayload here = .next { s with seq := SeqCode.latch }) ∨
    (s.payload = [] ∧ (s.opl = .init ∨ s.opl = .final) ∧
      s.afterPayload here = .fault (.noTransition here s.opl)) := by
  unfold State.afterPayload
  cases hp : s.payload with
  | cons b rest => simp
  | nil => cases ho : s.opl <;> simp

/-- Everything `afterPad` can answer. -/
theorem State.afterPad_cases (s : State) :
    (s.p = 56#7 ∧ s.afterPad = { s with seq := SeqCode.padlen }) ∨
    (s.p = 64#7 ∧ s.afterPad = { s with ret := .spill, seq := SeqCode.load }) ∨
    (s.p ≠ 56#7 ∧ s.p ≠ 64#7 ∧ s.afterPad = { s with seq := SeqCode.padz }) := by
  unfold State.afterPad
  by_cases h1 : s.p = 56#7
  · simp [h1]
  · by_cases h2 : s.p = 64#7
    · simp [h2]
    · simp [h1, h2]

/-- `P` after one padding byte. -/
theorem State.padByte_p_toNat {s : State} (h : s.p.toNat ≤ 63) (b : Byte) :
    (s.padByte b).p.toNat = s.p.toNat + 1 := by
  simp only [State.padByte_p, BitVec.toNat_add, BitVec.toNat_ofNat]
  omega

/-- Everything the admission of a command in `IDLE` can answer (45_sequencer.md R186). -/
theorem State.accept_cases (s : State) (c : Command) :
    (Op.ofBits c.op = .init ∧
      s.accept c = { s with opl := .init, payload := [], response := none, seq := SeqCode.uinit }) ∨
    (Op.ofBits c.op = .hash ∧
      s.accept c = { s with opl := .hash, payload := c.payload, response := none, seq := SeqCode.uinit }) ∨
    ((Op.ofBits c.op = .update ∨ Op.ofBits c.op = .final) ∧ s.phase ≠ .active ∧
      s.accept c = { s with payload := [], response := none, seq := SeqCode.refuse }) ∨
    (Op.ofBits c.op = .update ∧ s.phase = .active ∧ c.payload = [] ∧ s.accept c = s.finishUpdate) ∨
    (Op.ofBits c.op = .update ∧ s.phase = .active ∧ c.payload ≠ [] ∧
      s.accept c = { s with opl := .update, payload := c.payload, response := none, seq := SeqCode.absorb }) ∨
    (Op.ofBits c.op = .final ∧ s.phase = .active ∧
      s.accept c = { s with opl := .final, payload := [], response := none, seq := SeqCode.latch }) := by
  unfold State.accept
  cases ho : Op.ofBits c.op <;> cases hp : s.phase <;> cases hd : c.payload <;> simp [Phase.refusal]

/-- The phases the admission check refuses (60_exceptions.md R193). -/
theorem Phase.refusal_cases (p : Phase) :
    (p = .uninit ∧ p.refusal = some .notInitialised) ∨ (p = .active ∧ p.refusal = none) ∨
    (p = .done ∧ p.refusal = some .alreadyFinalised) := by
  cases p <;> simp [Phase.refusal]

/-- Everything a refusal can leave (60_exceptions.md R194): the code alone is open where no cause fits. -/
theorem State.refuse_cases (s : State) :
    (∃ code, s.phase.refusal = some code ∧ s.refuse = s.protocolError code) ∨
    (s.phase = .active ∧ s.refuse =
      ({ s with draws := s.draws + 1 } : State).protocolError (RspCode.ofBits (anyBits s.draws 2 31))) := by
  unfold State.refuse
  cases hp : s.phase <;> simp [Phase.refusal]

/-- What the fetch gives: a whole command from the port, or the code in `SEQ`. -/
theorem State.fetch_cases (s : State) :
    (∃ c rest, s.seq = SeqCode.idle ∧ s.grain = .command ∧ s.pending = c :: rest ∧
      s.fetch = (.command c, { s with pending := rest })) ∨
    ((s.seq = SeqCode.idle → s.grain = .command → s.pending = []) ∧ s.fetch = (.sequencer s.seq, s)) := by
  unfold State.fetch
  by_cases h : s.seq = SeqCode.idle ∧ s.grain = .command
  · rw [if_pos h]
    cases hp : s.pending with
    | nil => exact .inr ⟨fun _ _ => rfl, rfl⟩
    | cons c rest => exact .inl ⟨c, rest, h.1, h.2, rfl, rfl⟩
  · rw [if_neg h]
    exact .inr ⟨fun h1 h2 => absurd ⟨h1, h2⟩ h, rfl⟩

theorem State.fetch_sequencer {s : State} (h : s.grain = .sequencer) : s.fetch = (.sequencer s.seq, s) := by
  simp [State.fetch, h]

/-- A step that answers a next state is the host's reset, or runs the instruction the fetch decodes to. -/
theorem step_cases {s t : State} (h : step s = .next t) :
    (∃ later, s.rstIn = 0 :: later ∧ t = s.resetEvent) ∨
    ∃ r i, (s.rstIn = [] ∧ r = [] ∨ ∃ k later, s.rstIn = (k + 1) :: later ∧ r = k :: later) ∧
      decode ({ s with rstIn := r } : State).fetch.1 = .ok i ∧
      exec i ({ s with rstIn := r } : State).fetch.2 = .next t := by
  have engine : ∀ u : State, stepEngine u = .next t →
      ∃ i, decode u.fetch.1 = .ok i ∧ exec i u.fetch.2 = .next t := by
    intro u hu
    unfold stepEngine at hu
    split at hu
    · exact ⟨_, ‹_›, hu⟩
    · cases hu
  unfold step at h
  split at h
  · rename_i later hl
    exact .inl ⟨later, hl, (Host.Outcome.next.inj h).symm⟩
  · rename_i k later hk
    obtain ⟨i, hi⟩ := engine _ h
    exact .inr ⟨k :: later, i, .inr ⟨k, later, hk, rfl⟩, hi⟩
  · rename_i hn
    obtain ⟨i, hi⟩ := engine _ h
    have : ({ s with rstIn := [] } : State) = s := by rw [← hn]
    exact .inr ⟨[], i, .inl ⟨hn, rfl⟩, by rw [this]; exact hi⟩

/-- The fetch reads nothing of the host's resets. -/
theorem State.fetch_rstIn (s : State) (r : List Nat) : ({ s with rstIn := r } : State).fetch.1 = s.fetch.1 := by
  unfold State.fetch
  split
  · cases s.pending <;> rfl
  · rfl

theorem step_of_reset {s : State} {later : List Nat} (h : s.rstIn = 0 :: later) : step s = .next s.resetEvent := by
  simp [step, h]

theorem step_of_no_reset {s : State} (h : s.rstIn = []) : step s = stepEngine s := by
  simp [step, h]

/-- The step of an engine at a sequencer code. -/
theorem step_sequencer {s : State} (hr : s.rstIn = []) (hg : s.grain = .sequencer) {i : Instr}
    (hd : decodeSeq s.seq = .ok i) : step s = exec i s := by
  rw [step_of_no_reset hr, stepEngine, State.fetch_sequencer hg]
  simp [decode, hd]

/-! Runs of several steps. -/

theorem run_zero (s : State) : Sys2Proof.core.run 0 s = .next s := rfl

theorem run_succ_of_next {s t : State} (n : Nat) (h : step s = .next t) :
    Sys2Proof.core.run (n + 1) s = Sys2Proof.core.run n t := by
  have hs : Sys2Proof.core.step s = .next t := h
  simp only [Host.Core.run, hs]

theorem run_succ_of_fault {s : State} {r : Fault} (n : Nat) (h : step s = .fault r) :
    Sys2Proof.core.run (n + 1) s = .fault r := by
  have hs : Sys2Proof.core.step s = .fault r := h
  simp only [Host.Core.run, hs]

theorem run_succ_of_refused {s : State} {r : Refusal} (n : Nat) (h : step s = .refused r) :
    Sys2Proof.core.run (n + 1) s = .refused r := by
  have hs : Sys2Proof.core.step s = .refused r := h
  simp only [Host.Core.run, hs]

/-- A run of `m + n` steps is a run of `m` steps and then one of `n`. -/
theorem run_add {s t : State} (m n : Nat) (h : Sys2Proof.core.run m s = .next t) :
    Sys2Proof.core.run (m + n) s = Sys2Proof.core.run n t := by
  induction m generalizing s with
  | zero =>
    cases h
    rw [Nat.zero_add]
  | succ m ih =>
    rw [show m + 1 + n = m + n + 1 by omega]
    cases hs : step s with
    | next u =>
      rw [run_succ_of_next _ hs] at h ⊢
      exact ih h
    | fault r =>
      rw [run_succ_of_fault _ hs] at h
      cases h
    | refused r =>
      rw [run_succ_of_refused _ hs] at h
      cases h

end Sys2Proof.Machine
end

