-- ==== Sys2Proof/Laws/Exec.lean ====
section
/-! SUPPORT. One equation per case of each instruction: which state `exec` answers, named by the shared operations. -/

namespace Sys2Proof.Machine

/-! Host commands. -/

theorem exec_init {s : State} (h : s.seq = SeqCode.idle) : exec .init s = .next s.createContext.finishInit := by
  simp only [exec, execInit, State.whenIdle_of_idle h]

theorem exec_update {s : State} (h : s.seq = SeqCode.idle) (hp : s.phase = .active) (data : List Byte) :
    exec (.update data) s = .next (s.appendBytes data).finishUpdate := by
  simp only [exec, execUpdate, State.whenIdle_of_idle h, State.admitted_active hp]

theorem exec_update_refused {s : State} {code : RspCode} (h : s.seq = SeqCode.idle) (hp : s.phase.refusal = some code)
    (data : List Byte) : exec (.update data) s = .next (s.protocolError code) := by
  simp only [exec, execUpdate, State.whenIdle_of_idle h, State.admitted_refused hp]

theorem exec_final {s : State} (h : s.seq = SeqCode.idle) (hp : s.phase = .active) :
    exec .final s = .next s.computeDigest.finishFinal := by
  simp only [exec, execFinal, State.whenIdle_of_idle h, State.admitted_active hp]

theorem exec_final_refused {s : State} {code : RspCode} (h : s.seq = SeqCode.idle) (hp : s.phase.refusal = some code) :
    exec .final s = .next (s.protocolError code) := by
  simp only [exec, execFinal, State.whenIdle_of_idle h, State.admitted_refused hp]

theorem exec_hash {s : State} (h : s.seq = SeqCode.idle) (data : List Byte) :
    exec (.hash data) s = .next (s.createContext.appendBytes data).computeDigest.finishFinal := by
  simp only [exec, execHash, State.whenIdle_of_idle h]

/-! `IDLE`, `UINIT`, `REFUSE`. -/

theorem exec_idle_waits {s : State} (h : s.pending = []) : exec .idle s = .next s := by
  simp only [exec, execIdle, h]

theorem exec_idle_accepts {s : State} {c : Command} {rest : List Command} (h : s.pending = c :: rest) :
    exec .idle s = .next (({ s with pending := rest } : State).accept c) := by
  simp only [exec, execIdle, h]

theorem exec_uinit_init {s : State} (h : s.opl = .init) : exec .uinit s = .next s.createContext.finishInit := by
  simp only [exec, execUinit, h]

theorem exec_uinit_hash {s : State} (h : s.opl = .hash) :
    exec .uinit s =
      .next { s.createContext with seq := if s.payload = [] then SeqCode.latch else SeqCode.absorb } := by
  cases hp : s.payload <;> simp [exec, execUinit, h, hp]

theorem exec_refuse (s : State) : exec .refuse s = .next s.refuse := rfl

theorem exec_refuse_refused {s : State} {code : RspCode} (h : s.phase.refusal = some code) :
    exec .refuse s = .next (s.protocolError code) := by
  simp only [exec, execRefuse, State.refuse, h]

/-! `ABSORB`. -/

theorem exec_absorb_waits {s : State} (h : s.payload = []) : exec .absorb s = .next s := by
  simp only [exec, execAbsorb, h]

theorem exec_absorb_full {s : State} {b : Byte} {rest : List Byte} (h : s.payload = b :: rest) (hn : s.count = 63) :
    exec .absorb s = .next { s.absorbed b rest with ret := .abs, seq := SeqCode.load } := by
  simp only [exec, execAbsorb, h, if_pos hn, State.absorbed]

theorem exec_absorb_part {s : State} {b : Byte} {rest : List Byte} (h : s.payload = b :: rest) (hn : s.count ≠ 63) :
    exec .absorb s = (s.absorbed b rest).afterPayload SeqCode.absorb := by
  simp only [exec, execAbsorb, h, if_neg hn, State.absorbed]

/-! The compression. -/

theorem exec_load (s : State) :
    exec .load s = .next { s with
      x := messageWords s.buf.read, left := Line.ofChain s.h, right := Line.ofChain s.h, j := 0#7,
      seq := SeqCode.round } := rfl

theorem exec_round {s : State} (h : s.j.toNat ≤ 79) :
    exec .round s = .next { s with
      left := roundLeft s.x s.j.toNat s.left, right := roundRight s.x s.j.toNat s.right,
      j := if s.j = 79#7 then s.j else s.j + 1#7,
      seq := if s.j = 79#7 then SeqCode.combine else SeqCode.round } := by
  simp only [exec, execRound, if_pos h]

theorem exec_combine_abs {s : State} (h : s.ret = .abs) :
    exec .combine s =
      s.foldLines.afterPayload SeqCode.combine := by
  simp only [exec, execCombine, h]

theorem exec_combine_spill {s : State} (h : s.ret = .spill) :
    exec .combine s = .next { s.foldLines with p := 0#7, seq := SeqCode.padz } := by
  simp only [exec, execCombine, h]

theorem exec_combine_last {s : State} (h : s.ret = .last) :
    exec .combine s = .next { s.foldLines with seq := SeqCode.out } := by
  simp only [exec, execCombine, h]

/-! The padding and the output. -/

theorem exec_latch (s : State) :
    exec .latch s = .next { s with
      len := bitLength s.total, p := padStart s.total, seq := SeqCode.pad80 } := rfl

theorem exec_pad80 {s : State} (h : s.p.toNat ≤ 63) : exec .pad80 s = .next (s.padByte 0x80#8).afterPad := by
  simp only [exec, execPad80, if_pos h]

theorem exec_padz {s : State} (h : s.p.toNat ≤ 63) : exec .padz s = .next (s.padByte 0x00#8).afterPad := by
  simp only [exec, execPadz, if_pos h]

theorem exec_padlen {s : State} (h1 : 56 ≤ s.p.toNat) (h2 : s.p.toNat ≤ 63) :
    exec .padlen s = .next { s.padByte (byteOf s.len (s.p.toNat - 56)) with
      ret := if s.p.toNat = 63 then .last else s.ret,
      seq := if s.p.toNat = 63 then SeqCode.load else SeqCode.padlen } := by
  have hp : ((s.padByte (byteOf s.len (s.p.toNat - 56))).p = 64#7) ↔ s.p.toNat = 63 := by
    rw [← BitVec.toNat_inj, State.padByte_p_toNat h2]
    simp
  simp only [exec, execPadlen, if_pos (And.intro h1 h2)]
  by_cases h3 : s.p.toNat = 63
  · rw [if_pos (hp.mpr h3), if_pos h3, if_pos h3]
  · rw [if_neg (fun h => h3 (hp.mp h)), if_neg h3, if_neg h3]
    rfl

theorem exec_out (s : State) :
    exec .out s = .next ({ s with dout := Memory.ofBytes (serialise s.h) } : State).finishFinal := rfl

/-! The codes of `SEQ`, decoded (30_encoding.md R88). -/

theorem decodeSeq_idle : decodeSeq SeqCode.idle = .ok .idle := rfl
theorem decodeSeq_uinit : decodeSeq SeqCode.uinit = .ok .uinit := rfl
theorem decodeSeq_absorb : decodeSeq SeqCode.absorb = .ok .absorb := rfl
theorem decodeSeq_load : decodeSeq SeqCode.load = .ok .load := rfl
theorem decodeSeq_round : decodeSeq SeqCode.round = .ok .round := rfl
theorem decodeSeq_combine : decodeSeq SeqCode.combine = .ok .combine := rfl
theorem decodeSeq_latch : decodeSeq SeqCode.latch = .ok .latch := rfl
theorem decodeSeq_pad80 : decodeSeq SeqCode.pad80 = .ok .pad80 := rfl
theorem decodeSeq_padz : decodeSeq SeqCode.padz = .ok .padz := rfl
theorem decodeSeq_padlen : decodeSeq SeqCode.padlen = .ok .padlen := rfl
theorem decodeSeq_out : decodeSeq SeqCode.out = .ok .out := rfl
theorem decodeSeq_refuse : decodeSeq SeqCode.refuse = .ok .refuse := rfl

/-- Every code up to 0xB names a micro-operation. -/
theorem decodeSeq_cases {code : BitVec 4} (h : code.toNat ≤ 0xB) :
    (code = SeqCode.idle ∧ decodeSeq code = .ok .idle) ∨ (code = SeqCode.uinit ∧ decodeSeq code = .ok .uinit) ∨
    (code = SeqCode.absorb ∧ decodeSeq code = .ok .absorb) ∨ (code = SeqCode.load ∧ decodeSeq code = .ok .load) ∨
    (code = SeqCode.round ∧ decodeSeq code = .ok .round) ∨ (code = SeqCode.combine ∧ decodeSeq code = .ok .combine) ∨
    (code = SeqCode.latch ∧ decodeSeq code = .ok .latch) ∨ (code = SeqCode.pad80 ∧ decodeSeq code = .ok .pad80) ∨
    (code = SeqCode.padz ∧ decodeSeq code = .ok .padz) ∨ (code = SeqCode.padlen ∧ decodeSeq code = .ok .padlen) ∨
    (code = SeqCode.out ∧ decodeSeq code = .ok .out) ∨ (code = SeqCode.refuse ∧ decodeSeq code = .ok .refuse) := by
  revert code
  decide

/-! The fields a finished command keeps. -/

theorem State.retire_eq (s : State) :
    s.retire = { s.withTransientsOf s.retire with seq := SeqCode.idle, payload := [] } := rfl

theorem State.finishInit_eq (s : State) :
    s.finishInit = { s.withTransientsOf s.finishInit with
      seq := SeqCode.idle, payload := [], response := some ⟨.ok, none⟩ } := rfl

theorem State.finishUpdate_eq (s : State) :
    s.finishUpdate = { s.withTransientsOf s.finishUpdate with
      buf := s.finishUpdate.buf, seq := SeqCode.idle, payload := [], response := some ⟨.ok, none⟩ } := rfl

theorem State.finishFinal_eq (s : State) :
    s.finishFinal = { s.withTransientsOf s.finishFinal with
      h := s.finishFinal.h, total := s.finishFinal.total, buf := s.finishFinal.buf, phase := .done,
      seq := SeqCode.idle, payload := [], response := some ⟨.ok, some s.digest⟩ } := by
  simp only [State.finishFinal, State.respond, State.retire, State.anyTransients, State.anyContext,
    State.withTransientsOf, State.digest]

end Sys2Proof.Machine
end

