-- ==== Sys2Proof/Laws/Cases.lean ====
section
/-! SUPPORT. Everything an instruction, and a step, can do when it answers a next state: one constructor a case, each with
the condition it happens under and the state it leaves. A claim over all instructions is a case analysis on this. -/

namespace Sys2Proof.Machine

/-- The cases in which `exec i s` answers the next state. -/
inductive ExecCase : Instr → State → State → Prop where
  | busy {i : Instr} {s : State} : i.isCommand = true → s.seq ≠ SeqCode.idle → ExecCase i s s
  | init {s : State} : s.seq = SeqCode.idle → ExecCase .init s s.createContext.finishInit
  | update {s : State} {data : List Byte} : s.seq = SeqCode.idle → s.phase = .active →
      ExecCase (.update data) s (s.appendBytes data).finishUpdate
  | updateRefused {s : State} {data : List Byte} {code : RspCode} : s.seq = SeqCode.idle →
      s.phase.refusal = some code → ExecCase (.update data) s (s.protocolError code)
  | final {s : State} : s.seq = SeqCode.idle → s.phase = .active → ExecCase .final s s.computeDigest.finishFinal
  | finalRefused {s : State} {code : RspCode} : s.seq = SeqCode.idle → s.phase.refusal = some code →
      ExecCase .final s (s.protocolError code)
  | hash {s : State} {data : List Byte} : s.seq = SeqCode.idle →
      ExecCase (.hash data) s (s.createContext.appendBytes data).computeDigest.finishFinal
  | idleWaits {s : State} : s.pending = [] → ExecCase .idle s s
  | acceptInit {s : State} {c : Command} {rest : List Command} : s.pending = c :: rest → Op.ofBits c.op = .init →
      ExecCase .idle s { s with
        pending := rest, opl := .init, payload := [], response := none, seq := SeqCode.uinit }
  | acceptHash {s : State} {c : Command} {rest : List Command} : s.pending = c :: rest → Op.ofBits c.op = .hash →
      ExecCase .idle s { s with
        pending := rest, opl := .hash, payload := c.payload, response := none, seq := SeqCode.uinit }
  | acceptRefused {s : State} {c : Command} {rest : List Command} : s.pending = c :: rest →
      Op.ofBits c.op = .update ∨ Op.ofBits c.op = .final → s.phase ≠ .active →
      ExecCase .idle s { s with pending := rest, payload := [], response := none, seq := SeqCode.refuse }
  | acceptNothing {s : State} {c : Command} {rest : List Command} : s.pending = c :: rest →
      Op.ofBits c.op = .update → s.phase = .active → c.payload = [] →
      ExecCase .idle s ({ s with pending := rest } : State).finishUpdate
  | acceptUpdate {s : State} {c : Command} {rest : List Command} : s.pending = c :: rest →
      Op.ofBits c.op = .update → s.phase = .active → c.payload ≠ [] →
      ExecCase .idle s { s with
        pending := rest, opl := .update, payload := c.payload, response := none, seq := SeqCode.absorb }
  | acceptFinal {s : State} {c : Command} {rest : List Command} : s.pending = c :: rest →
      Op.ofBits c.op = .final → s.phase = .active →
      ExecCase .idle s { s with
        pending := rest, opl := .final, payload := [], response := none, seq := SeqCode.latch }
  | uinitInit {s : State} : s.opl = .init → ExecCase .uinit s s.createContext.finishInit
  | uinitHash {s : State} : s.opl = .hash →
      ExecCase .uinit s { s.createContext with seq := if s.payload = [] then SeqCode.latch else SeqCode.absorb }
  | absorbWaits {s : State} : s.payload = [] → ExecCase .absorb s s
  | absorbFull {s : State} {b : Byte} {rest : List Byte} : s.payload = b :: rest → s.count = 63 →
      ExecCase .absorb s { s.absorbed b rest with ret := .abs, seq := SeqCode.load }
  | absorbMore {s : State} {b : Byte} {rest : List Byte} : s.payload = b :: rest → s.count ≠ 63 → rest ≠ [] →
      ExecCase .absorb s { s.absorbed b rest with seq := SeqCode.absorb }
  | absorbEndUpdate {s : State} {b : Byte} : s.payload = [b] → s.count ≠ 63 → s.opl = .update →
      ExecCase .absorb s (s.absorbed b []).finishUpdate
  | absorbEndHash {s : State} {b : Byte} : s.payload = [b] → s.count ≠ 63 → s.opl = .hash →
      ExecCase .absorb s { s.absorbed b [] with seq := SeqCode.latch }
  | load {s : State} : ExecCase .load s { s with
      x := messageWords s.buf.read, left := Line.ofChain s.h, right := Line.ofChain s.h, j := 0#7,
      seq := SeqCode.round }
  | roundOn {s : State} : s.j.toNat < 79 → ExecCase .round s { s with
      left := roundLeft s.x s.j.toNat s.left, right := roundRight s.x s.j.toNat s.right,
      j := s.j + 1#7, seq := SeqCode.round }
  | roundLast {s : State} : s.j = 79#7 → ExecCase .round s { s with
      left := roundLeft s.x 79 s.left, right := roundRight s.x 79 s.right, seq := SeqCode.combine }
  | combineMore {s : State} : s.ret = .abs → s.payload ≠ [] →
      ExecCase .combine s { s.foldLines with seq := SeqCode.absorb }
  | combineEndUpdate {s : State} : s.ret = .abs → s.payload = [] → s.opl = .update →
      ExecCase .combine s s.foldLines.finishUpdate
  | combineEndHash {s : State} : s.ret = .abs → s.payload = [] → s.opl = .hash →
      ExecCase .combine s { s.foldLines with seq := SeqCode.latch }
  | combineSpill {s : State} : s.ret = .spill →
      ExecCase .combine s { s.foldLines with p := 0#7, seq := SeqCode.padz }
  | combineLast {s : State} : s.ret = .last →
      ExecCase .combine s { s.foldLines with seq := SeqCode.out }
  | latch {s : State} :
      ExecCase .latch s { s with len := bitLength s.total, p := padStart s.total, seq := SeqCode.pad80 }
  | padToLength {i : Instr} {b : Byte} {s : State} : (i = .pad80 ∧ b = 0x80#8) ∨ (i = .padz ∧ b = 0x00#8) →
      s.p.toNat = 55 → ExecCase i s { s.padByte b with seq := SeqCode.padlen }
  | padToSpill {i : Instr} {b : Byte} {s : State} : (i = .pad80 ∧ b = 0x80#8) ∨ (i = .padz ∧ b = 0x00#8) →
      s.p.toNat = 63 → ExecCase i s { s.padByte b with ret := .spill, seq := SeqCode.load }
  | padToZero {i : Instr} {b : Byte} {s : State} : (i = .pad80 ∧ b = 0x80#8) ∨ (i = .padz ∧ b = 0x00#8) →
      s.p.toNat ≠ 55 → s.p.toNat < 63 → ExecCase i s { s.padByte b with seq := SeqCode.padz }
  | padlenOn {s : State} : 56 ≤ s.p.toNat → s.p.toNat < 63 →
      ExecCase .padlen s { s.padByte (byteOf s.len (s.p.toNat - 56)) with seq := SeqCode.padlen }
  | padlenLast {s : State} : s.p.toNat = 63 →
      ExecCase .padlen s { s.padByte (byteOf s.len 7) with ret := .last, seq := SeqCode.load }
  | out {s : State} : ExecCase .out s ({ s with dout := Memory.ofBytes (serialise s.h) } : State).finishFinal
  | refuse {s : State} {code : RspCode} : s.phase.refusal = some code → ExecCase .refuse s (s.protocolError code)
  | refuseActive {s : State} : s.phase = .active → ExecCase .refuse s
      (({ s with draws := s.draws + 1 } : State).protocolError (RspCode.ofBits (anyBits s.draws 2 31)))

/-- The padding micro-operations, in one place. -/
theorem ExecCase.ofPad {i : Instr} {b : Byte} {s : State}
    (hi : (i = .pad80 ∧ b = 0x80#8) ∨ (i = .padz ∧ b = 0x00#8)) (hp : s.p.toNat ≤ 63) :
    ExecCase i s (s.padByte b).afterPad := by
  have hn := State.padByte_p_toNat hp b
  rcases (s.padByte b).afterPad_cases with ⟨h, e⟩ | ⟨h, e⟩ | ⟨h1, h2, e⟩
  · rw [e]
    rw [h] at hn
    exact .padToLength hi (by simpa using hn.symm)
  · rw [e]
    rw [h] at hn
    exact .padToSpill hi (by simpa using hn.symm)
  · rw [e]
    have n1 : s.p.toNat + 1 ≠ 56 := fun h => h1 (BitVec.eq_of_toNat_eq (by rw [hn, h]; rfl))
    have n2 : s.p.toNat + 1 ≠ 64 := fun h => h2 (BitVec.eq_of_toNat_eq (by rw [hn, h]; rfl))
    exact .padToZero hi (by omega) (by omega)

/-- A next state of `exec` comes from one of the cases. -/
theorem exec_cases {i : Instr} {s t : State} (h : exec i s = .next t) : ExecCase i s t := by
  by_cases hb : i.isCommand = true ∧ s.seq ≠ SeqCode.idle
  · have hst : t = s := by
      obtain ⟨hi, hs⟩ := hb
      cases i <;> simp only [Instr.isCommand, Bool.false_eq_true] at hi <;>
        simp only [exec, execInit, execUpdate, execFinal, execHash, State.whenIdle_of_busy hs,
          Host.Outcome.next.injEq] at h <;> exact h.symm
    rw [hst]
    exact .busy hb.1 hb.2
  · have idle : i.isCommand = true → s.seq = SeqCode.idle := fun hi => by
      by_contra hs
      exact hb ⟨hi, hs⟩
    cases i with
    | init =>
      have hs := idle rfl
      rw [exec_init hs] at h
      cases h
      exact .init hs
    | update data =>
      have hs := idle rfl
      rcases s.phase.refusal_cases with ⟨_, hr⟩ | ⟨hp, _⟩ | ⟨_, hr⟩
      · rw [exec_update_refused hs hr] at h
        cases h
        exact .updateRefused hs hr
      · rw [exec_update hs hp] at h
        cases h
        exact .update hs hp
      · rw [exec_update_refused hs hr] at h
        cases h
        exact .updateRefused hs hr
    | final =>
      have hs := idle rfl
      rcases s.phase.refusal_cases with ⟨_, hr⟩ | ⟨hp, _⟩ | ⟨_, hr⟩
      · rw [exec_final_refused hs hr] at h
        cases h
        exact .finalRefused hs hr
      · rw [exec_final hs hp] at h
        cases h
        exact .final hs hp
      · rw [exec_final_refused hs hr] at h
        cases h
        exact .finalRefused hs hr
    | hash data =>
      have hs := idle rfl
      rw [exec_hash hs] at h
      cases h
      exact .hash hs
    | idle =>
      cases hp : s.pending with
      | nil =>
        rw [exec_idle_waits hp] at h
        cases h
        exact .idleWaits hp
      | cons c rest =>
        rw [exec_idle_accepts hp] at h
        cases h
        rcases ({ s with pending := rest } : State).accept_cases c with
          ⟨ho, e⟩ | ⟨ho, e⟩ | ⟨ho, hph, e⟩ | ⟨ho, hph, hd, e⟩ | ⟨ho, hph, hd, e⟩ | ⟨ho, hph, e⟩
        · rw [e]
          exact .acceptInit hp ho
        · rw [e]
          exact .acceptHash hp ho
        · rw [e]
          exact .acceptRefused hp ho hph
        · rw [e]
          exact .acceptNothing hp ho hph hd
        · rw [e]
          exact .acceptUpdate hp ho hph hd
        · rw [e]
          exact .acceptFinal hp ho hph
    | uinit =>
      cases ho : s.opl with
      | init =>
        rw [exec_uinit_init ho] at h
        cases h
        exact .uinitInit ho
      | hash =>
        rw [exec_uinit_hash ho] at h
        cases h
        exact .uinitHash ho
      | update => simp [exec, execUinit, ho] at h
      | final => simp [exec, execUinit, ho] at h
    | absorb =>
      cases hp : s.payload with
      | nil =>
        rw [exec_absorb_waits hp] at h
        cases h
        exact .absorbWaits hp
      | cons b rest =>
        by_cases hc : s.count = 63
        · rw [exec_absorb_full hp hc] at h
          cases h
          exact .absorbFull hp hc
        · rw [exec_absorb_part hp hc] at h
          rcases (s.absorbed b rest).afterPayload_cases SeqCode.absorb with
            ⟨hm, e⟩ | ⟨hm, ho, e⟩ | ⟨hm, ho, e⟩ | ⟨hm, ho, e⟩
          · rw [e] at h
            cases h
            exact .absorbMore hp hc hm
          · have hr : rest = [] := hm
            subst hr
            rw [e] at h
            cases h
            exact .absorbEndUpdate hp hc ho
          · have hr : rest = [] := hm
            subst hr
            rw [e] at h
            cases h
            exact .absorbEndHash hp hc ho
          · rw [e] at h
            cases h
    | load =>
      rw [exec_load] at h
      cases h
      exact .load
    | round =>
      by_cases hj : s.j.toNat ≤ 79
      · rw [exec_round hj] at h
        cases h
        by_cases hl : s.j = 79#7
        · rw [if_pos hl, if_pos hl]
          have hl' : s.j.toNat = 79 := by rw [hl]; rfl
          rw [hl']
          exact .roundLast hl
        · rw [if_neg hl, if_neg hl]
          have hl' : s.j.toNat ≠ 79 := fun h => hl (BitVec.eq_of_toNat_eq h)
          exact .roundOn (by omega)
      · simp [exec, execRound, hj] at h
    | combine =>
      cases hr : s.ret with
      | abs =>
        rw [exec_combine_abs hr] at h
        rcases s.foldLines.afterPayload_cases SeqCode.combine with
          ⟨hm, e⟩ | ⟨hm, ho, e⟩ | ⟨hm, ho, e⟩ | ⟨hm, ho, e⟩
        · rw [e] at h
          cases h
          exact .combineMore hr hm
        · rw [e] at h
          cases h
          exact .combineEndUpdate hr hm ho
        · rw [e] at h
          cases h
          exact .combineEndHash hr hm ho
        · rw [e] at h
          cases h
      | spill =>
        rw [exec_combine_spill hr] at h
        cases h
        exact .combineSpill hr
      | last =>
        rw [exec_combine_last hr] at h
        cases h
        exact .combineLast hr
    | latch =>
      rw [exec_latch] at h
      cases h
      exact .latch
    | pad80 =>
      by_cases hp : s.p.toNat ≤ 63
      · rw [exec_pad80 hp] at h
        cases h
        exact .ofPad (.inl ⟨rfl, rfl⟩) hp
      · simp [exec, execPad80, hp] at h
    | padz =>
      by_cases hp : s.p.toNat ≤ 63
      · rw [exec_padz hp] at h
        cases h
        exact .ofPad (.inr ⟨rfl, rfl⟩) hp
      · simp [exec, execPadz, hp] at h
    | padlen =>
      by_cases hp : 56 ≤ s.p.toNat ∧ s.p.toNat ≤ 63
      · rw [exec_padlen hp.1 hp.2] at h
        cases h
        by_cases hl : s.p.toNat = 63
        · rw [if_pos hl, if_pos hl, hl]
          exact .padlenLast hl
        · rw [if_neg hl, if_neg hl]
          exact .padlenOn hp.1 (by omega)
      · simp [exec, execPadlen, hp] at h
    | out =>
      rw [exec_out] at h
      cases h
      exact .out
    | refuse =>
      rw [exec_refuse] at h
      cases h
      rcases s.refuse_cases with ⟨code, hr, e⟩ | ⟨hp, e⟩
      · rw [e]
        exact .refuse hr
      · rw [e]
        exact .refuseActive hp

/-- A sequencer code is decoded to the instruction whose token it is. -/
theorem encode_of_decodeSeq {code : BitVec 4} {i : Instr} (h : decodeSeq code = .ok i) :
    encode i = .sequencer code := by
  by_cases hc : code.toNat ≤ 0xB
  · rcases decodeSeq_cases hc with ⟨rfl, e⟩ | ⟨rfl, e⟩ | ⟨rfl, e⟩ | ⟨rfl, e⟩ | ⟨rfl, e⟩ | ⟨rfl, e⟩ | ⟨rfl, e⟩ |
      ⟨rfl, e⟩ | ⟨rfl, e⟩ | ⟨rfl, e⟩ | ⟨rfl, e⟩ | ⟨rfl, e⟩ <;>
    · rw [e] at h
      cases h
      rfl
  · have unused : ∀ c : BitVec 4, ¬ c.toNat ≤ 0xB → decodeSeq c = .error (.unusedSeq c) := by decide
    rw [unused code hc] at h
    cases h

/-- The instruction of a command is a command. -/
theorem decodeCommand_isCommand (c : Command) : (decodeCommand c).isCommand = true := by
  unfold decodeCommand
  cases Op.ofBits c.op <;> rfl

/-- A step that answers a next state is the host's reset; or a whole command from the port, the engine idle; or the
micro-operation `SEQ` names. -/
theorem step_exec_cases {s t : State} (h : step s = .next t) :
    (∃ later, s.rstIn = 0 :: later ∧ t = s.resetEvent) ∨
    (∃ r c rest, s.seq = SeqCode.idle ∧ s.grain = .command ∧ s.pending = c :: rest ∧
      ExecCase (decodeCommand c) { s with rstIn := r, pending := rest } t) ∨
    (∃ r i, encode i = .sequencer s.seq ∧ ExecCase i { s with rstIn := r } t) := by
  rcases step_cases h with hr | ⟨r, i, -, hd, he⟩
  · exact .inl hr
  · rcases ({ s with rstIn := r } : State).fetch_cases with ⟨c, rest, h1, h2, h3, e⟩ | ⟨-, e⟩
    · rw [e] at hd he
      cases hd
      exact .inr (.inl ⟨r, c, rest, h1, h2, h3, exec_cases he⟩)
    · rw [e] at hd he
      exact .inr (.inr ⟨r, i, encode_of_decodeSeq hd, exec_cases he⟩)

end Sys2Proof.Machine
end

