-- ==== Sys2Proof/Laws/PerInstr.lean ====
section
/-! SUPPORT. The facts stated per instruction, as syntax: the format of its token (30_encoding.md R81, R82). -/

namespace Sys2Proof.Laws.TokenFormat

/-- The instruction's token is well formed: a command carries a payload only where bit 0 of its opcode is 1, and a
sequencer code is an assigned one (R82, R88). -/
def Statement (i : Instr) : Prop :=
  i.wellFormed = true

theorem init : Statement .init := rfl

theorem update (data : List Byte) : Statement (.update data) := by
  simp [Statement, Instr.wellFormed, encode, Token.wellFormed, Command.wellFormed]

theorem final : Statement .final := rfl

theorem hash (data : List Byte) : Statement (.hash data) := by
  simp [Statement, Instr.wellFormed, encode, Token.wellFormed, Command.wellFormed]

theorem idle : Statement .idle := rfl

theorem uinit : Statement .uinit := rfl

theorem absorb : Statement .absorb := rfl

theorem load : Statement .load := rfl

theorem round : Statement .round := rfl

theorem combine : Statement .combine := rfl

theorem latch : Statement .latch := rfl

theorem pad80 : Statement .pad80 := rfl

theorem padz : Statement .padz := rfl

theorem padlen : Statement .padlen := rfl

theorem out : Statement .out := rfl

theorem refuse : Statement .refuse := rfl

end Sys2Proof.Laws.TokenFormat
end

