-- ==== Sys2Proof/Laws/Words.lean ====
section
/-! SUPPORT. Words and bytes: the spec's arithmetic reading of `le32`, `byte`, `rol` and the message words. -/

namespace Sys2Proof.Machine

/-- `rol` is the rotation (00_scope.md R11). -/
theorem rol_eq_rotateLeft (a : Word) {s : Nat} (h : s ≤ 31) : rol a s = a.rotateLeft s := by
  rw [BitVec.rotateLeft_def, rol, Nat.mod_eq_of_lt (by omega)]

/-- `byte(v, k)` is the slice `v[8k+7:8k]` (R11). -/
theorem byteOf_eq_extractLsb' {n : Nat} (v : BitVec n) (k : Nat) : byteOf v k = v.extractLsb' (8 * k) 8 := by
  apply BitVec.eq_of_getLsbD_eq
  intro i hi
  simp [byteOf, BitVec.getLsbD_extractLsb']

/-- `le32` as a sum (R11). -/
theorem toNat_le32 (b0 b1 b2 b3 : Byte) :
    (le32 b0 b1 b2 b3).toNat = b0.toNat + 2 ^ 8 * b1.toNat + 2 ^ 16 * b2.toNat + 2 ^ 24 * b3.toNat := by
  have h0 := b0.isLt
  have h1 := b1.isLt
  have h2 := b2.isLt
  simp only [le32, BitVec.toNat_append]
  rw [← Nat.shiftLeft_add_eq_or_of_lt h2, ← Nat.shiftLeft_add_eq_or_of_lt h1, ← Nat.shiftLeft_add_eq_or_of_lt h0]
  simp only [Nat.shiftLeft_eq]
  omega

theorem messageWords_get (block : Nat → Byte) (i : Fin 16) : (messageWords block).get i = messageWord block i := by
  fin_cases i <;> rfl

/-- A word is the four bytes it is split into. -/
theorem le32_bytes_of_word (v : BitVec 64) (k : Nat) :
    le32 (byteOf v (4 * k)) (byteOf v (4 * k + 1)) (byteOf v (4 * k + 2)) (byteOf v (4 * k + 3)) =
      v.extractLsb' (32 * k) 32 := by
  apply BitVec.eq_of_toNat_eq
  simp only [toNat_le32, byteOf, BitVec.toNat_setWidth, BitVec.toNat_ushiftRight, BitVec.extractLsb'_toNat,
    Nat.shiftRight_eq_div_pow]
  generalize v.toNat = n
  rw [show 8 * (4 * k + 1) = 8 * (4 * k) + 8 by omega, show 8 * (4 * k + 2) = 8 * (4 * k) + 16 by omega,
    show 8 * (4 * k + 3) = 8 * (4 * k) + 24 by omega, show 32 * k = 8 * (4 * k) by omega,
    Nat.pow_add, Nat.pow_add, Nat.pow_add, ← Nat.div_div_eq_div_mul, ← Nat.div_div_eq_div_mul,
    ← Nat.div_div_eq_div_mul]
  generalize n / 2 ^ (8 * (4 * k)) = m
  omega

/-- The bit length as a number (43_final.md R167). -/
theorem bitLength_eq (total : BitVec 64) : bitLength total = BitVec.ofNat 64 (8 * total.toNat) := by
  apply BitVec.eq_of_toNat_eq
  simp only [bitLength, BitVec.toNat_shiftLeft, BitVec.toNat_ofNat, Nat.shiftLeft_eq]
  omega

/-- The padding pointer starts at the number of buffered bytes (43_final.md R161). -/
theorem toNat_padStart (total : BitVec 64) : (padStart total).toNat = total.toNat % 64 := by
  simp only [padStart, BitVec.toNat_setWidth]
  omega

/-- The bytes of a serialised chaining value (20_memory.md R53). -/
theorem getElem?_serialise (h : Chain) {i k : Nat} (hi : i < 5) (hk : k < 4) :
    (serialise h)[4 * i + k]? = some (byteOf (h.words.getD i 0) k) := by
  have h1 : i = 0 ∨ i = 1 ∨ i = 2 ∨ i = 3 ∨ i = 4 := by omega
  have h2 : k = 0 ∨ k = 1 ∨ k = 2 ∨ k = 3 := by omega
  rcases h1 with rfl | rfl | rfl | rfl | rfl <;> rcases h2 with rfl | rfl | rfl | rfl <;> rfl

/-- `DOUT` after it is written from a chaining value. -/
theorem read_serialise (h : Chain) {i k : Nat} (hi : i < 5) (hk : k < 4) :
    (Memory.ofBytes (serialise h)).read (4 * i + k) = byteOf (h.words.getD i 0) k := by
  have hl : 4 * i + k < (serialise h).length := by simp; omega
  rw [Memory.read_ofBytes _ _ hl]
  have := getElem?_serialise h hi hk
  rw [List.getElem?_eq_getElem hl] at this
  exact Option.some.inj this

end Sys2Proof.Machine
end

