-- ==== Sys2Proof/Tests/Slice0.lean ====
section
/-! SUPPORT. Small tests, each with expected values printed in spec/ (its place is named), and the witnesses: for every
statement with hypotheses a concrete state and operands that meet them. -/

namespace Sys2Proof.Tests

open Sys2Proof.Machine

/-! Helpers. -/

/-- The next state, or the reset state where there is none. -/
def after (o : Host.Outcome State Fault Refusal) : State :=
  match o with
  | .next t => t
  | .fault _ | .refused _ => State.reset

/-- The fault, if there is one. -/
def faultOf (o : Host.Outcome State Fault Refusal) : Option Fault :=
  match o with
  | .fault r => some r
  | .next _ | .refused _ => none

/-- An idle engine with `H = IV`, these buffered bytes, and a byte count. -/
def active (buffered : List Byte) (total : BitVec 64) : State :=
  { State.reset with h := Rom.iv, total := total, buf := Memory.ofBytes buffered, phase := .active }

/-- The engine after `INIT`, but for what is open. -/
def fresh : State := active [] 0#64

/-- An engine after a digest was delivered. -/
def done : State := { State.reset with phase := .done, dout := [(0, 0x8e#8)] }

/-- The engine in a micro-operation of an admitted command. -/
def inside (code : BitVec 4) (s : State) : State := { s with phase := .active, seq := code }

/-- A host's command waiting at the port. -/
def offering (c : Command) (s : State) : State := { s with pending := [c] }

def abc : List Byte := [0x61#8, 0x62#8, 0x63#8]

/-- The padded block of "abc" (95_test_vectors.md section 2.4). -/
def abcBlock : List Byte :=
  abc ++ [0x80#8] ++ List.replicate 52 0x00#8 ++ [0x18#8] ++ List.replicate 7 0x00#8

/-- The engine before round `j`, with the message words of the padded "abc". -/
def abcRound (j : BitVec 7) (l r : Line) : State :=
  { inside SeqCode.round fresh with x := messageWords (fun i => abcBlock.getD i 0#8), j := j, left := l, right := r }

/-- The digest of "abc" (95_test_vectors.md section 1, L3 as completed there). -/
def abcDigest : List Byte :=
  [0x8e#8, 0xb2#8, 0x08#8, 0xf7#8, 0xe0#8, 0x5d#8, 0x98#8, 0x7a#8, 0x9b#8, 0x04#8,
   0x4a#8, 0x8e#8, 0x98#8, 0xc6#8, 0xb0#8, 0x87#8, 0xf1#8, 0x5a#8, 0x0b#8, 0xfc#8]

/-! Well-formedness refuses (30_encoding.md R82, R88). -/

theorem test_wellFormed_refuses_init_with_payload : Token.wellFormed (.command ⟨0b00#2, [0x61#8]⟩) = false := by decide
theorem test_wellFormed_refuses_final_with_payload : Token.wellFormed (.command ⟨0b10#2, [0x61#8]⟩) = false := by decide
theorem test_wellFormed_refuses_unused_code : Token.wellFormed (.sequencer 0xC#4) = false := by decide
theorem test_wellFormed_accepts_update_with_payload : Token.wellFormed (.command ⟨0b01#2, [0x61#8]⟩) = true := by decide

/-! Decoding, each word written out from 30_encoding.md R84 and R88. -/

theorem test_decode_init : decode (.command ⟨0b00#2, []⟩) = .ok .init := by decide
theorem test_decode_update : decode (.command ⟨0b01#2, [0x61#8]⟩) = .ok (.update [0x61#8]) := by decide
theorem test_decode_final : decode (.command ⟨0b10#2, []⟩) = .ok .final := by decide
theorem test_decode_hash : decode (.command ⟨0b11#2, [0x61#8]⟩) = .ok (.hash [0x61#8]) := by decide
theorem test_decode_idle : decode (.sequencer 0b0000#4) = .ok .idle := by decide
theorem test_decode_uinit : decode (.sequencer 0b0001#4) = .ok .uinit := by decide
theorem test_decode_absorb : decode (.sequencer 0b0010#4) = .ok .absorb := by decide
theorem test_decode_load : decode (.sequencer 0b0011#4) = .ok .load := by decide
theorem test_decode_round : decode (.sequencer 0b0100#4) = .ok .round := by decide
theorem test_decode_combine : decode (.sequencer 0b0101#4) = .ok .combine := by decide
theorem test_decode_latch : decode (.sequencer 0b0110#4) = .ok .latch := by decide
theorem test_decode_pad80 : decode (.sequencer 0b0111#4) = .ok .pad80 := by decide
theorem test_decode_padz : decode (.sequencer 0b1000#4) = .ok .padz := by decide
theorem test_decode_padlen : decode (.sequencer 0b1001#4) = .ok .padlen := by decide
theorem test_decode_out : decode (.sequencer 0b1010#4) = .ok .out := by decide
theorem test_decode_refuse : decode (.sequencer 0b1011#4) = .ok .refuse := by decide
theorem test_decode_unused : decode (.sequencer 0b1100#4) = .error (.unusedSeq 0xC#4) := by decide

/-! Primitives (95_test_vectors.md sections 2.3 and 2.7). -/

theorem test_rol : rol 0x80000000#32 1 = 0x00000001#32 ∧ rol 0x12345678#32 10 = 0xd159e048#32 ∧
    rol 0x4eeda863#32 11 = 0x6d431a77#32 := by decide
theorem test_bytes : le32 0x61#8 0x62#8 0x63#8 0x80#8 = 0x80636261#32 ∧ byteOf 0xa585119c#32 0 = 0x9c#8 ∧
    byteOf 0xa585119c#32 3 = 0xa5#8 := by decide
theorem test_le64 : le64 0x00000007fffffff8#64 =
    [0xf8#8, 0xff#8, 0xff#8, 0xff#8, 0x07#8, 0x00#8, 0x00#8, 0x00#8] := by decide
theorem test_boolean_functions : (List.range 5).map (fun k => boolFn k 0xaaaaaaaa#32 0xcccccccc#32 0xf0f0f0f0#32) =
    [0x96969696#32, 0xd8d8d8d8#32, 0x4b4b4b4b#32, 0xacacacac#32, 0x65656565#32] := by decide
theorem test_counter : addTotal 0x00000000fffffffe#64 0x43 = 0x0000000100000041#64 ∧
    addTotal 0xffffffffffffffc0#64 0x43 = 3#64 ∧ addTotal 5#64 (2 ^ 64) = 5#64 := by decide
theorem test_bit_length : bitLength 0x2000000000000003#64 = 0x18#64 ∧
    bitLength 0x00000000ffffffff#64 = 0x00000007fffffff8#64 := by decide
theorem test_status : ({ State.reset with phase := .done, err := true } : State).status = 0b110#3 := by decide
/-- 30_encoding.md R92. -/
theorem test_response_codes :
    (RspCode.ok.bits, RspCode.notInitialised.bits, RspCode.alreadyFinalised.bits) = (0b00#2, 0b01#2, 0b10#2) := by decide
theorem test_memory_write_keeps_form : Memory.write (Memory.write [(3, 0x01#8)] 1 0x02#8) 3 0x00#8 = [(1, 0x02#8)] := by
  decide

/-! `Compress` (95_test_vectors.md section 2.4). -/

theorem test_compress_ff : compress Rom.iv (List.replicate 64 0xff#8) =
    ⟨0xd0f198ff#32, 0x8504c819#32, 0xb3dfc4ad#32, 0xecc33b0a#32, 0x013e641d#32⟩ := by decide +kernel
theorem test_compress_from_ones :
    compress ⟨0xffffffff#32, 0xffffffff#32, 0xffffffff#32, 0xffffffff#32, 0xffffffff#32⟩
      ((List.range 64).map (BitVec.ofNat 8)) =
    ⟨0x4cb06809#32, 0x3c6b05ba#32, 0xc2d30c90#32, 0xdda7fea5#32, 0x74323e5e#32⟩ := by decide +kernel

/-! The four commands, one step each. -/

/-- 40_init.md R100, worked example. -/
theorem test_init : (after (exec .init State.reset)).h =
      ⟨0x67452301#32, 0xefcdab89#32, 0x98badcfe#32, 0x10325476#32, 0xc3d2e1f0#32⟩ ∧
    (after (exec .init State.reset)).status = 0b001#3 := by decide
/-- 95_test_vectors.md section 2.9, row `A`, `INIT`. -/
theorem test_init_discards : (after (exec .init (active abc 3#64))).total = 0#64 := by decide
/-- 95_test_vectors.md section 2.8, row 2. -/
theorem test_update_buffers : (after (exec (.update abc) fresh)).total = 3#64 ∧
    (after (exec (.update abc) fresh)).buf.readBytes 0 3 = abc ∧ (after (exec (.update abc) fresh)).h = Rom.iv := by
  decide +kernel
/-- 95_test_vectors.md section 2.8: `61*63` buffered, then one more byte. -/
theorem test_update_completes_block :
    (after (exec (.update [0x61#8]) (active (List.replicate 63 0x61#8) 63#64))).h =
      ⟨0xd42339f0#32, 0xce5b9f6f#32, 0x2874a075#32, 0xdf67aaf1#32, 0xc6c1be1c#32⟩ := by decide +kernel
/-- 43_final.md R160, worked example. -/
theorem test_final : (after (exec .final (active abc 3#64))).response = some ⟨.ok, some abcDigest⟩ := by decide +kernel
/-- 95_test_vectors.md section 2.2, `m = 56`: two blocks. -/
theorem test_final_two_blocks : (after (exec .final (active (List.replicate 56 0x61#8) 56#64))).digest =
    [0xe7#8, 0x23#8, 0x34#8, 0xb4#8, 0x6c#8, 0x83#8, 0xcc#8, 0x70#8, 0xbe#8, 0xf9#8,
     0x79#8, 0xe1#8, 0x54#8, 0x53#8, 0x70#8, 0x6c#8, 0x95#8, 0xb8#8, 0x88#8, 0xbe#8] := by decide +kernel
/-- 44_hash.md R180, worked example: "message digest". -/
theorem test_hash : (after (exec (.hash
      [0x6d#8, 0x65#8, 0x73#8, 0x73#8, 0x61#8, 0x67#8, 0x65#8, 0x20#8, 0x64#8, 0x69#8, 0x67#8, 0x65#8, 0x73#8, 0x74#8])
      done)).digest =
    [0x5d#8, 0x06#8, 0x89#8, 0xef#8, 0x49#8, 0xd2#8, 0xfa#8, 0xe5#8, 0x72#8, 0xb8#8,
     0x81#8, 0xb1#8, 0x23#8, 0xa8#8, 0x5f#8, 0xfa#8, 0x21#8, 0x59#8, 0x5f#8, 0x36#8] := by decide +kernel
/-- 95_test_vectors.md section 2.2, `m = 65`. -/
theorem test_hash_two_blocks : (after (exec (.hash (List.replicate 65 0x61#8)) State.reset)).digest =
    [0x99#8, 0x72#8, 0x4b#8, 0xb1#8, 0x18#8, 0x11#8, 0xe7#8, 0x16#8, 0x6a#8, 0xf3#8,
     0x8f#8, 0x67#8, 0x1b#8, 0x6a#8, 0x08#8, 0x2d#8, 0x8a#8, 0xb4#8, 0x96#8, 0x0b#8] := by decide +kernel
/-- 95_test_vectors.md section 2.9, row `D`, `UPDATE ""`. -/
theorem test_update_refused : (after (exec (.update []) done)).status = 0b110#3 ∧
    (after (exec (.update []) done)).response = some ⟨.alreadyFinalised, none⟩ ∧
    (after (exec (.update []) done)).dout = done.dout := by decide
/-- 95_test_vectors.md section 2.9, row `U`, `FINAL`. -/
theorem test_final_refused : (after (exec .final State.reset)).status = 0b100#3 ∧
    (after (exec .final State.reset)).response = some ⟨.notInitialised, none⟩ := by decide

/-! The micro-operations, one step each. -/

/-- 45_sequencer.md R186, rows of `IDLE`. -/
theorem test_idle_refuses : (after (exec .idle (offering ⟨0b10#2, []⟩ State.reset))).seq = SeqCode.refuse := by decide
theorem test_idle_takes_hash :
    (after (exec .idle (offering ⟨0b11#2, abc⟩ done))).seq = SeqCode.uinit ∧
    (after (exec .idle (offering ⟨0b11#2, abc⟩ done))).opl = .hash := by decide
/-- 40_init.md R101; 95_test_vectors.md section 2.10, `HASH ""` after `UINIT`. -/
theorem test_uinit_hash_empty : (after (exec .uinit { State.reset with seq := SeqCode.uinit, opl := .hash })).seq =
      SeqCode.latch ∧
    (after (exec .uinit { State.reset with seq := SeqCode.uinit, opl := .hash })).h = Rom.iv := by decide
/-- 95_test_vectors.md section 2.7: `TOTAL` 0x3f, the byte completes a block. -/
theorem test_absorb_full :
    let t := after (exec .absorb { inside SeqCode.absorb (active [] 63#64) with opl := .update, payload := [0x61#8] })
    t.seq = SeqCode.load ∧ t.total = 0x40#64 ∧ t.buf.read 63 = 0x61#8 ∧ t.ret = .abs := by decide
/-- 45_sequencer.md R186: `HASH`, no more payload. -/
theorem test_absorb_last_byte_of_hash :
    (after (exec .absorb { inside SeqCode.absorb fresh with opl := .hash, payload := [0x61#8] })).seq = SeqCode.latch := by
  decide
/-- 42_compress.md R136, worked example. -/
theorem test_load :
    let t := after (exec .load (inside SeqCode.load (active abcBlock 3#64)))
    t.x.get 0 = 0x80636261#32 ∧ t.x.get 14 = 0x00000018#32 ∧ t.right.e = 0xc3d2e1f0#32 ∧ t.j = 0#7 := by decide +kernel
/-- 96_round_trace.md, row 0. -/
theorem test_round_first :
    let t := after (exec .round (abcRound 0#7 (Line.ofChain Rom.iv) (Line.ofChain Rom.iv)))
    t.left = ⟨0xc3d2e1f0#32, 0x3115fc67#32, 0xefcdab89#32, 0xeb73fa62#32, 0x10325476#32⟩ ∧
    t.right = ⟨0xc3d2e1f0#32, 0xddd63fb8#32, 0xefcdab89#32, 0xeb73fa62#32, 0x10325476#32⟩ ∧
    t.j = 1#7 ∧ t.seq = SeqCode.round := by decide +kernel
/-- 96_round_trace.md, rows 78 and 79. -/
theorem test_round_last :
    let t := after (exec .round (abcRound 79#7
      ⟨0x8fde3eac#32, 0x0b2cdc01#32, 0x1a1b904d#32, 0xfc433da8#32, 0x641129ca#32⟩
      ⟨0xfe7a8725#32, 0xbf627814#32, 0xc13f038a#32, 0x739c4c7a#32, 0x81d4727d#32⟩))
    t.left = ⟨0x641129ca#32, 0xd563bfdc#32, 0x0b2cdc01#32, 0x6e413468#32, 0xfc433da8#32⟩ ∧
    t.right = ⟨0x81d4727d#32, 0x5fccbade#32, 0xbf627814#32, 0xfc0e2b04#32, 0x739c4c7a#32⟩ ∧
    t.seq = SeqCode.combine := by decide +kernel
/-- 42_compress.md R141, worked example. -/
theorem test_combine :
    let t := after (exec .combine { inside SeqCode.combine fresh with
      ret := .last
      left := ⟨0x641129ca#32, 0xd563bfdc#32, 0x0b2cdc01#32, 0x6e413468#32, 0xfc433da8#32⟩
      right := ⟨0x81d4727d#32, 0x5fccbade#32, 0xbf627814#32, 0xfc0e2b04#32, 0x739c4c7a#32⟩ })
    t.h = ⟨0xf708b28e#32, 0x7a985de0#32, 0x8e4a049b#32, 0x87b0c698#32, 0xfc0b5af1#32⟩ ∧ t.seq = SeqCode.out := by decide
/-- 45_sequencer.md R186, row `RET = SPILL`. -/
theorem test_combine_spill :
    let t := after (exec .combine { inside SeqCode.combine fresh with ret := .spill, p := 64#7 })
    t.p = 0#7 ∧ t.seq = SeqCode.padz := by decide
/-- 43_final.md R167, worked example. -/
theorem test_latch :
    let t := after (exec .latch (inside SeqCode.latch (active abc 0x2000000000000003#64)))
    t.len = 0x18#64 ∧ t.p = 3#7 ∧ t.seq = SeqCode.pad80 := by decide
/-- 43_final.md R166, `n = 55`, and `n = 63`. -/
theorem test_pad80_at_55 :
    let t := after (exec .pad80 { inside SeqCode.pad80 fresh with p := 55#7 })
    t.buf.read 55 = 0x80#8 ∧ t.p = 56#7 ∧ t.seq = SeqCode.padlen := by decide
theorem test_pad80_at_63 :
    let t := after (exec .pad80 { inside SeqCode.pad80 fresh with p := 63#7 })
    t.buf.read 63 = 0x80#8 ∧ t.p = 64#7 ∧ t.ret = .spill ∧ t.seq = SeqCode.load := by decide
/-- 45_sequencer.md R186, rows of `PADZ`. -/
theorem test_padz :
    let t := after (exec .padz { inside SeqCode.padz (active [0x61#8] 0#64) with p := 0#7 })
    t.buf.read 0 = 0x00#8 ∧ t.p = 1#7 ∧ t.seq = SeqCode.padz := by decide
theorem test_padz_to_length : (after (exec .padz { inside SeqCode.padz fresh with p := 55#7 })).seq = SeqCode.padlen := by
  decide
/-- 95_test_vectors.md section 2.7, `TOTAL` 0xffffffff: length bytes 4 and 7. -/
theorem test_padlen :
    let t := after (exec .padlen { inside SeqCode.padlen fresh with p := 60#7, len := 0x00000007fffffff8#64 })
    t.buf.read 60 = 0x07#8 ∧ t.seq = SeqCode.padlen := by decide
theorem test_padlen_last :
    let t := after (exec .padlen { inside SeqCode.padlen fresh with p := 63#7, len := 0xff00000000000000#64 })
    t.buf.read 63 = 0xff#8 ∧ t.seq = SeqCode.load ∧ t.ret = .last := by decide
/-- 95_test_vectors.md section 2.4: the compressed padded "abc", serialised (section 1, L3). -/
theorem test_out :
    let t := after (exec .out { inside SeqCode.out fresh with
      h := ⟨0xf708b28e#32, 0x7a985de0#32, 0x8e4a049b#32, 0x87b0c698#32, 0xfc0b5af1#32⟩ })
    t.digest = abcDigest ∧ t.status = 0b010#3 ∧ t.response = some ⟨.ok, some abcDigest⟩ := by decide +kernel
/-- 60_exceptions.md R194. -/
theorem test_refuse :
    let t := after (exec .refuse { done with seq := SeqCode.refuse, payload := abc })
    t.err = true ∧ t.payload = [] ∧ t.response = some ⟨.alreadyFinalised, none⟩ ∧ t.dout = done.dout := by decide

/-- 45_sequencer.md R186, `REFUSE`, "always": with `PHASE = ACTIVE` only the code is open. -/
theorem test_refuse_active :
    let t := after (exec .refuse { inside SeqCode.refuse fresh with payload := abc })
    t.err = true ∧ t.payload = [] ∧ t.seq = SeqCode.idle ∧ t.phase = .active := by decide

/-! Reset (95_test_vectors.md section 2.11: in the middle of `UPDATE`, `SEQ = ROUND`, `J = 40`). -/

theorem test_reset_event :
    let t := after (step { inside SeqCode.round fresh with j := 40#7, err := true, rstIn := [0] })
    t.status = 0b000#3 ∧ t.seq = SeqCode.idle ∧ t.response = none := by decide

/-- 70_reset_and_hazards.md R220, "Reset may occur at any time": a second event in the same run. -/
theorem test_second_reset_event :
    let t := after (step (after (step { inside SeqCode.round fresh with rstIn := [0, 0] })))
    t.status = 0b000#3 ∧ t.rstIn = [] ∧ t.draws = 2 := by decide

/-! Witnesses. Each names the statement whose hypotheses it meets. -/

theorem witness_EncodingIsExact :
    Token.wellFormed (.command ⟨0b01#2, abc⟩) = true ∧ Token.wellFormed (.sequencer 0xB#4) = true ∧
    encode (.update abc) = .command ⟨0b01#2, abc⟩ := by decide
theorem witness_EveryCommandDecodes : 0xC ≤ (0xC#4).toNat ∧ 0xC ≤ (0xF#4).toNat := by decide
theorem witness_StepRunsDecodedInstruction :
    (fresh.rstIn = [] ∧ decode fresh.fetch.1 = .ok .idle) ∧
    (∃ s : State, s.rstIn = (0 + 1) :: [2] ∧ decode ({ s with rstIn := 0 :: [2] } : State).fetch.1 = .ok .idle) ∧
    (∃ s : State, s.seq = SeqCode.idle ∧ s.grain = .command ∧ s.pending = [⟨0b00#2, []⟩]) :=
  ⟨by decide, ⟨{ fresh with rstIn := [1, 2] }, by decide⟩,
   ⟨{ fresh with grain := .command, pending := [⟨0b00#2, []⟩] }, by decide⟩⟩
theorem witness_StepRunsDecodedInstruction_sequencer :
    (inside SeqCode.load fresh).seq ≠ SeqCode.idle ∧ fresh.grain = .sequencer ∧ fresh.pending = [] := by decide
theorem witness_StepStopsAtUnusedCode : ∃ s : State, s.rstIn = [] ∧ 0xC ≤ s.seq.toNat :=
  ⟨{ fresh with seq := 0xC#4 }, by decide⟩
theorem witness_ResetEventInterruptsAnything : ∃ s : State, s.rstIn = 0 :: [0, 3] :=
  ⟨{ inside SeqCode.round fresh with rstIn := [0, 0, 3] }, rfl⟩
theorem witness_ErrIsSticky : ∃ s t : State, s.rstIn.head? ≠ some 0 ∧ s.err = true ∧ step s = .next t :=
  ⟨{ fresh with err := true }, { fresh with err := true }, by decide, rfl, rfl⟩
theorem witness_ErrAffectsNoInstruction :
    (∃ t, exec .idle fresh = .next t) ∧ exec .round { fresh with j := 80#7 } = .fault (.romIndex 80#7) :=
  ⟨⟨fresh, rfl⟩, rfl⟩
theorem witness_CommandsAreTakenInOrder : ∃ t, step (offering ⟨0b10#2, []⟩ fresh) = .next t ∧ t.pending = [] :=
  ⟨_, rfl, rfl⟩
theorem witness_BusyEngineTakesNoCommand : Instr.isCommand .init = true ∧ (inside SeqCode.absorb fresh).seq ≠ SeqCode.idle := by
  decide
theorem witness_InitCreatesFreshContext : State.reset.seq = SeqCode.idle ∧ fresh.seq = SeqCode.idle := by decide
theorem witness_InitForgetsTheContext : done.seq = SeqCode.idle ∧ fresh.seq = SeqCode.idle ∧ done.err = fresh.err := by
  decide
theorem witness_UinitLoadsTheContext :
    State.reset.opl = .init ∧ ({ State.reset with opl := .hash } : State).payload = [] ∧
    ({ State.reset with opl := .hash, payload := abc } : State).opl = .hash := by decide
theorem witness_UpdateAppendsThePayload :
    (active (List.replicate 63 0x61#8) 63#64).seq = SeqCode.idle ∧
    (active (List.replicate 63 0x61#8) 63#64).phase = .active ∧
    (active (List.replicate 63 0x61#8) 63#64).buf.wf 64 = true ∧
    State.reset.phase.refusal = some .notInitialised ∧ done.phase.refusal = some .alreadyFinalised := by decide +kernel
theorem witness_UpdateOfNothingIsNoOp :
    (fresh.seq = SeqCode.idle ∧ fresh.phase = .active ∧ fresh.buf.wf 64 = true) ∧
    (done.seq = SeqCode.idle ∧ done.phase.refusal = some .alreadyFinalised) ∧
    State.reset.phase.refusal = some .notInitialised := by decide
theorem witness_UpdateIsChunkInvariant : fresh.seq = SeqCode.idle ∧ fresh.phase = .active ∧ fresh.buf.wf 64 = true := by
  decide
theorem witness_CounterAddsOnHalves :
    (active [] 0x0000000100000000#64).total = addTotal (active [] 0x00000000ffffffff#64).total 1 ∧
    fresh.total = addTotal (active [] 0xffffffffffffffff#64).total 1 := by decide
theorem witness_AbsorbTakesOneByte_full :
    ∃ s : State, s.payload = [0x61#8] ∧ s.buf.wf 64 = true ∧ s.opl.hasPayload = true ∧ s.count = 63 :=
  ⟨{ active [] 63#64 with opl := .update, payload := [0x61#8] }, by decide⟩
theorem witness_AbsorbTakesOneByte_more :
    ∃ s : State, s.payload = 0x61#8 :: [0x62#8] ∧ s.buf.wf 64 = true ∧ s.opl.hasPayload = true ∧ s.count = 62 :=
  ⟨{ active [] 62#64 with opl := .update, payload := [0x61#8, 0x62#8] }, by decide⟩
theorem witness_AbsorbTakesOneByte_hash :
    ∃ s : State, s.payload = [0x61#8] ∧ s.buf.wf 64 = true ∧ s.opl = .hash ∧ s.count = 0 :=
  ⟨{ fresh with opl := .hash, payload := [0x61#8] }, by decide⟩
theorem witness_AbsorbTakesOneByte_update :
    ∃ s : State, s.payload = [0x61#8] ∧ s.buf.wf 64 = true ∧ s.opl = .update ∧ s.count = 62 :=
  ⟨{ active [] 62#64 with opl := .update, payload := [0x61#8] }, by decide⟩
theorem witness_AbsorbWaitsForAByte : fresh.payload = [] := by decide
theorem witness_LengthFieldIsTheLastTwoWords :
    ∀ k : Fin 8, (active abcBlock 3#64).buf.read (56 + k) = (0x18#64).extractLsb' (8 * k) 8 := by decide +kernel
theorem witness_RoundStepsBothLines :
    (abcRound 0#7 (Line.ofChain Rom.iv) (Line.ofChain Rom.iv)).j.toNat ≤ 79 ∧
    (abcRound 78#7 (Line.ofChain Rom.iv) (Line.ofChain Rom.iv)).j.toNat < 79 ∧
    (abcRound 79#7 (Line.ofChain Rom.iv) (Line.ofChain Rom.iv)).j.toNat = 79 := by decide
theorem witness_BooleanFunctionsByBit : 0 < 32 ∧ 31 < 32 := by decide
theorem witness_LinesAreIndependent : (abcRound 79#7 (Line.ofChain Rom.iv) (Line.ofChain Rom.iv)).j.toNat ≤ 79 := by decide
theorem witness_CombineFoldsBothLines_abs :
    ∃ s u : State, s.ret = .abs ∧ s.opl = .update ∧ s.payload = [] ∧ u.ret = .abs ∧ u.opl = .hash ∧ u.payload = [] :=
  ⟨{ fresh with opl := .update }, { fresh with opl := .hash }, by decide⟩
theorem witness_CombineFoldsBothLines :
    ∃ s u v : State, (s.ret = .abs ∧ s.opl.hasPayload = true ∧ s.payload ≠ []) ∧ u.ret = .spill ∧ v.ret = .last :=
  ⟨{ fresh with opl := .hash, payload := abc }, { fresh with ret := .spill }, { fresh with ret := .last }, by decide⟩
theorem witness_CompressionRunsEightyRounds : (inside SeqCode.load fresh).seq = SeqCode.load ∧ fresh.rstIn = [] := by
  decide
theorem witness_FinalPadsAndSerialises :
    (active [] 55#64).seq = SeqCode.idle ∧ (active [] 55#64).phase = .active ∧ (active [] 55#64).count ≤ 55 ∧
    56 ≤ (active [] 56#64).count ∧ (active [] 56#64).phase = .active ∧
    State.reset.phase.refusal = some .notInitialised ∧ done.phase.refusal = some .alreadyFinalised := by decide
theorem witness_PaddingLayout : (List.replicate 55 0x61#8).length < 64 ∧ (List.replicate 63 0x61#8).length < 64 := by decide
theorem witness_PaddingWritesOneByte :
    ∃ s u : State, s.p.toNat ≤ 63 ∧ s.p.toNat + 1 = 64 ∧ s.buf.wf 64 = true ∧
      u.p.toNat ≤ 63 ∧ u.p.toNat + 1 = 56 ∧ u.buf.wf 64 = true :=
  ⟨{ inside SeqCode.pad80 (active abc 63#64) with p := 63#7 }, { inside SeqCode.padz (active abc 3#64) with p := 55#7 },
   by decide⟩
theorem witness_PadlenWritesOneLengthByte :
    ∃ s u : State, s.p.toNat = 56 ∧ 56 ≤ s.p.toNat ∧ s.p.toNat ≤ 63 ∧ s.buf.wf 64 = true ∧
      56 ≤ u.p.toNat ∧ u.p.toNat = 63 ∧ u.buf.wf 64 = true :=
  ⟨{ inside SeqCode.padlen (active abc 3#64) with p := 56#7 }, { inside SeqCode.padlen (active abc 3#64) with p := 63#7 },
   by decide⟩
theorem witness_HashIsInitUpdateFinal : done.seq = SeqCode.idle := by decide
theorem witness_HashGivesTheDigest : done.seq = SeqCode.idle ∧ done.buf.wf 64 = true := by decide
theorem witness_EmptyMessageDigest : State.reset.seq = SeqCode.idle := by decide
theorem witness_InitStartsTheEmptyMessage : done.seq = SeqCode.idle := by decide
/-- A message of three bytes, all buffered. -/
theorem witness_UpdateKeepsStreaming : (active abc 3#64).buf.wf 64 = true ∧ (active abc 3#64).Streaming abc :=
  ⟨by decide, ⟨rfl, rfl, rfl, by decide, rfl⟩⟩
/-- A message of one full block, compressed (95_test_vectors.md section 2.8, row `UPDATE 61*64`). -/
theorem witness_FinalGivesTheDigest :
    ({ active [] 64#64 with
      h := ⟨0xd42339f0#32, 0xce5b9f6f#32, 0x2874a075#32, 0xdf67aaf1#32, 0xc6c1be1c#32⟩ } : State).Streaming
      (List.replicate 64 0x61#8) :=
  ⟨rfl, rfl, by decide +kernel, by decide, by decide⟩
theorem witness_CommandsReadNoOpenValue :
    Instr.isCommand (.update abc) = true ∧ (active abc 3#64).SameContext { active abc 3#64 with j := 5#7 } ∧
    (active abc 3#64).buf.wf 64 = true :=
  ⟨rfl, ⟨rfl, rfl, rfl, rfl, fun _ => rfl, fun _ => rfl, fun _ => rfl, fun h => by cases h⟩, by decide⟩
theorem witness_AdmissionTable :
    State.reset.seq = SeqCode.idle ∧ State.reset.phase = .uninit ∧ fresh.phase = .active ∧ done.phase = .done := by decide
theorem witness_LegalSequencesAreNeverRefused :
    State.reset.seq = SeqCode.idle ∧ State.reset.phase = .uninit ∧ State.reset.err = false ∧
    (∀ i, i ∈ [Instr.init, .update abc, .final] → i.isCommand = true) := by decide
/-- 70_reset_and_hazards.md R222: `INIT; UPDATE "abc"; FINAL` is legal. -/
theorem witness_legal_sequence : LegalCommands [.init, .update abc, .final] :=
  .finished 0 [abc] [] .empty
theorem witness_RefusalTouchesNothingElse :
    State.reset.phase ≠ .active ∧ done.phase ≠ .active ∧ done.seq = SeqCode.idle := by decide
theorem witness_IdleAcceptsOneCommand :
    fresh.pending = [] ∧
    ((offering ⟨0b01#2, abc⟩ fresh).pending = [⟨0b01#2, abc⟩] ∧ (offering ⟨0b01#2, abc⟩ fresh).phase = .active ∧
      abc ≠ []) ∧
    ((offering ⟨0b01#2, []⟩ fresh).pending = [⟨0b01#2, []⟩] ∧ (offering ⟨0b01#2, []⟩ fresh).phase = .active) ∧
    ((offering ⟨0b10#2, []⟩ fresh).pending = [⟨0b10#2, []⟩] ∧ (offering ⟨0b10#2, []⟩ fresh).phase = .active) ∧
    ((offering ⟨0b01#2, abc⟩ State.reset).pending = [⟨0b01#2, abc⟩] ∧
      (offering ⟨0b01#2, abc⟩ State.reset).phase ≠ .active) ∧
    ((offering ⟨0b10#2, []⟩ done).pending = [⟨0b10#2, []⟩] ∧ (offering ⟨0b10#2, []⟩ done).phase ≠ .active) ∧
    (offering ⟨0b00#2, []⟩ State.reset).pending = [⟨0b00#2, []⟩] ∧
    (offering ⟨0b11#2, []⟩ State.reset).pending = [⟨0b11#2, []⟩] := by decide
theorem witness_UnreachableCombinationsStop :
    exec .uinit { fresh with opl := .final } = .fault (.noTransition SeqCode.uinit .final) ∧
    exec .combine { fresh with ret := .abs, opl := .init } = .fault (.noTransition SeqCode.combine .init) ∧
    exec .absorb { fresh with payload := [0x61#8], opl := .init } = .fault (.noTransition SeqCode.absorb .init) ∧
    exec .round { fresh with j := 80#7 } = .fault (.romIndex 80#7) ∧
    exec .pad80 { fresh with p := 64#7 } = .fault (.bufIndex 64#7) ∧
    exec .padlen { fresh with p := 55#7 } = .fault (.lengthIndex 55#7) ∧
    exec .padlen { fresh with p := 64#7 } = .fault (.lengthIndex 64#7) ∧
    fresh.phase = .active :=
  ⟨rfl, rfl, rfl, rfl, rfl, rfl, rfl, rfl⟩
theorem witness_PhaseChangesOnlyInTheLifecycle :
    ((after (exec .init State.reset)).phase ≠ State.reset.phase ∧ (∃ t, exec .init State.reset = .next t)) ∧
    (∃ t, step { done with rstIn := [0] } = .next t ∧ t.phase ≠ done.phase) ∧
    (∃ t, step (inside SeqCode.uinit State.reset) = .next t) :=
  ⟨⟨by decide, ⟨_, rfl⟩⟩, ⟨_, rfl, by decide⟩, ⟨_, rfl⟩⟩
theorem witness_DigestIsWrittenOnlyByOut :
    (∃ t, exec .idle done = .next t ∧ Instr.idle ≠ .out ∧ Instr.idle ≠ .final) ∧
    (∃ t, step (inside SeqCode.out fresh) = .next t) ∧
    (after (step (inside SeqCode.out fresh))).dout ≠ (inside SeqCode.out fresh).dout :=
  ⟨⟨_, rfl, by decide⟩, ⟨_, rfl⟩, by decide +kernel⟩
theorem witness_ChainIsWrittenOnlyByItsWriters : ∃ t, exec .latch (inside SeqCode.latch fresh) = .next t :=
  ⟨_, rfl⟩
theorem witness_WorkingRegistersAreKeptWithinACommand :
    (∃ t, exec .latch (inside SeqCode.latch fresh) = .next t) ∧
    (∃ t, exec .combine { inside SeqCode.combine fresh with ret := .last } = .next t) ∧
    (∃ u, exec .combine { inside SeqCode.combine fresh with ret := .last, left := ⟨1#32, 2#32, 3#32, 4#32, 5#32⟩ } =
      .next u) ∧
    (∃ t, exec .absorb { inside SeqCode.absorb fresh with opl := .hash, payload := [0x61#8] } = .next t ∧
      t.seq ≠ SeqCode.idle) :=
  ⟨⟨_, rfl⟩, ⟨_, rfl⟩, ⟨_, rfl⟩, ⟨_, rfl, by decide⟩⟩
/-- The invariant inside a command: the second padding block's zeros. -/
theorem witness_StepKeepsInv : ∃ s t : State, s.Inv ∧ s.seq = SeqCode.padz ∧ step s = .next t :=
  ⟨{ inside SeqCode.padz fresh with opl := .final, ret := .spill, p := 0#7 }, _,
   ⟨by decide, by decide, by decide, by decide, by decide, by decide, by decide, by decide, by decide, by decide,
    by decide, by decide⟩, rfl, rfl⟩
theorem witness_NothingFaults : State.Inv fresh :=
  ⟨by decide, by decide, by decide, by decide, by decide, by decide, by decide, by decide, by decide, by decide,
   by decide, by decide⟩
theorem witness_SequencerRunsInitAndRefusals :
    (offering ⟨0b00#2, []⟩ State.reset).seq = SeqCode.idle ∧ (offering ⟨0b00#2, []⟩ State.reset).grain = .sequencer ∧
    (offering ⟨0b00#2, []⟩ State.reset).rstIn = [] ∧
    (offering ⟨0b00#2, []⟩ State.reset).pending = [⟨0b00#2, []⟩] ∧ State.reset.phase ≠ .active := by decide
theorem witness_SequencerRunsUpdate :
    (offering ⟨0b01#2, abc⟩ fresh).seq = SeqCode.idle ∧ (offering ⟨0b01#2, abc⟩ fresh).grain = .sequencer ∧
    (offering ⟨0b01#2, abc⟩ fresh).rstIn = [] ∧ (offering ⟨0b01#2, abc⟩ fresh).phase = .active ∧
    (offering ⟨0b01#2, abc⟩ fresh).buf.wf 64 = true ∧
    (offering ⟨0b01#2, abc⟩ fresh).pending = [⟨0b01#2, abc⟩] := by decide
theorem witness_SequencerRunsFinal :
    (offering ⟨0b10#2, []⟩ fresh).seq = SeqCode.idle ∧ (offering ⟨0b10#2, []⟩ fresh).grain = .sequencer ∧
    (offering ⟨0b10#2, []⟩ fresh).rstIn = [] ∧ (offering ⟨0b10#2, []⟩ fresh).phase = .active ∧
    (offering ⟨0b10#2, []⟩ fresh).buf.wf 64 = true ∧ (offering ⟨0b10#2, []⟩ fresh).pending = [⟨0b10#2, []⟩] := by decide
theorem witness_SequencerRunsHash :
    (offering ⟨0b11#2, abc⟩ done).seq = SeqCode.idle ∧ (offering ⟨0b11#2, abc⟩ done).grain = .sequencer ∧
    (offering ⟨0b11#2, abc⟩ done).rstIn = [] ∧ (offering ⟨0b11#2, abc⟩ done).buf.wf 64 = true ∧
    (offering ⟨0b11#2, abc⟩ done).pending = [⟨0b11#2, abc⟩] := by decide

/-! The host's probe: an opcode table word runs as the first instruction after reset. -/

theorem test_fetch_word_init : (after (step (State.reset.withFetchWord 2 0b00))).status = 0b001#3 := by decide
theorem test_fetch_word_refuse : (after (step (State.reset.withFetchWord 4 0xB))).status = 0b100#3 := by decide

end Sys2Proof.Tests
end

namespace Sys2Proof.Machine

/-! # The registers of 10_state.md: status, `ERR`, and who writes what -/

/-! ## Status and reset -/

@[simp] theorem State.status_low (s : State) : s.status.extractLsb' 0 2 = s.phase.bits := by
  cases hp : s.phase <;> cases he : s.err <;> simp [State.status, hp, he, Phase.bits]

@[simp] theorem State.status_bit2 (s : State) : s.status.getLsbD 2 = s.err := by
  rw [State.status, BitVec.getLsbD_append]
  simp

/-- Settles O12: `STATUS` is `ERR` in front of the two bits of `PHASE`. -/
theorem statusLayout : Obligations.StatusLayout := by
  intro s
  refine ⟨fun h => ?_, fun h => ?_, fun h => ?_, s.status_bit2⟩ <;> rw [s.status_low, h] <;> rfl

/-- Settles O6: `State.reset` holds what R40 states. -/
theorem resetIsUninitialised : Obligations.ResetIsUninitialised :=
  ⟨rfl, rfl, rfl, rfl⟩

/-- Settles O54: both byte spaces are empty and `SEQ` is `IDLE`, so no clause about another code applies. -/
theorem resetSatisfiesInv : Obligations.ResetSatisfiesInv where
  bufCanonical := reset_memories_wf.1
  doutCanonical := reset_memories_wf.2
  seqUsed := by decide
  commandActive h := absurd rfl h
  uinitOp := by decide
  absorbOp := by decide
  returnOp := by decide
  roundIndex := by decide
  padIndex := by decide
  padzIndex := by decide
  lengthIndex := by decide
  refusePhase := by decide

/-! ## One field through every instruction -/

/-- A step is the reset event, or a case of the instruction the fetch decodes to, on the state without what the step
took from the host's ports. -/
theorem step_decoded_cases {s t : State} (h : step s = .next t) :
    (s.rstIn.head? = some 0 ∧ t = s.resetEvent) ∨
    ∃ i r rest, decode s.fetch.1 = .ok i ∧ ExecCase i { s with rstIn := r, pending := rest } t := by
  rcases step_cases h with ⟨later, hr, ht⟩ | ⟨r, i, -, hd, he⟩
  · exact .inl ⟨by rw [hr]; rfl, ht⟩
  · rw [State.fetch_rstIn] at hd
    refine .inr ⟨i, r, ?_⟩
    rcases ({ s with rstIn := r } : State).fetch_cases with ⟨c, rest, -, -, -, e⟩ | ⟨-, e⟩ <;> rw [e] at he
    · exact ⟨rest, hd, exec_cases he⟩
    · exact ⟨s.pending, hd, exec_cases he⟩

/-- Only a refusal writes `ERR`, and it sets it. -/
theorem ExecCase.err {i : Instr} {s t : State} (h : ExecCase i s t) : t.err = s.err ∨ t.err = true := by
  cases h with
  | updateRefused | finalRefused | refuse | refuseActive => exact .inr rfl
  | final | hash => exact .inl (by simp)
  | _ => exact .inl rfl

/-- Settles O8: no case of an instruction clears `ERR`, and the reset event is not due. -/
theorem errIsSticky : Obligations.ErrIsSticky := by
  intro s t hr he h
  rcases step_decoded_cases h with ⟨hr0, -⟩ | ⟨i, r, rest, -, hc⟩
  · exact absurd hr0 hr
  · exact hc.err.elim (fun h => h.trans he) id

/-- `PHASE` is written by the creation of a context and by what delivers a digest. -/
theorem ExecCase.phase {i : Instr} {s t : State} (h : ExecCase i s t) :
    t.phase = s.phase ∨ lifecycleChange i s.phase t.phase := by
  cases h with
  | init => exact .inr (.inl ⟨.inl rfl, rfl⟩)
  | uinitInit | uinitHash => exact .inr (.inl ⟨.inr rfl, rfl⟩)
  | final _ hp => exact .inr (.inr (.inl ⟨rfl, hp, rfl⟩))
  | out => exact .inr (.inr (.inr (.inl ⟨rfl, rfl⟩)))
  | hash => exact .inr (.inr (.inr (.inr ⟨_, rfl, rfl⟩)))
  | _ => exact .inl rfl

/-- Settles O50: the state `exec` runs on in a step has the phase of the state before, and the reset event makes it
`UNINIT`. -/
theorem phaseChangesOnlyInTheLifecycle : Obligations.PhaseChangesOnlyInTheLifecycle := by
  refine ⟨fun i s t h hne => (exec_cases h).phase.resolve_left hne, fun s t h hne => ?_⟩
  rcases step_decoded_cases h with ⟨hr, ht⟩ | ⟨i, r, rest, hd, hc⟩
  · exact .inl ⟨hr, by rw [ht, State.resetEvent_phase]⟩
  · exact .inr ⟨i, hd, hc.phase.resolve_left hne⟩

/-- `DOUT` is written by what serialises a chaining value. -/
theorem ExecCase.dout {i : Instr} {s t : State} (h : ExecCase i s t) :
    t.dout = s.dout ∨ i = .out ∨ i = .final ∨ ∃ data, i = .hash data := by
  cases h with
  | out => exact .inr (.inl rfl)
  | final => exact .inr (.inr (.inl rfl))
  | hash => exact .inr (.inr (.inr ⟨_, rfl⟩))
  | _ => exact .inl rfl

/-- Settles O51, through the writers of `DOUT`; a step that is no reset event is a case of the instruction it decodes. -/
theorem digestIsWrittenOnlyByOut : Obligations.DigestIsWrittenOnlyByOut := by
  refine ⟨fun i s t h ho hf hh => ?_, fun s t h hne => ?_⟩
  · exact (exec_cases h).dout.resolve_right fun hw =>
      hw.elim ho fun hw => hw.elim hf fun ⟨data, hd⟩ => hh data hd
  · rcases step_decoded_cases h with ⟨hr, -⟩ | ⟨i, r, rest, hd, hc⟩
    · exact .inl hr
    · exact .inr ⟨i, hd, hc.dout.resolve_left hne⟩

/-- `H` and `TOTAL` are written by commands, `UINIT`, `COMBINE` and `OUT`; `ABSORB` counts its byte. -/
theorem ExecCase.chain {i : Instr} {s t : State} (h : ExecCase i s t) :
    (t.h = s.h ∧ (t.total = s.total ∨ i = .absorb)) ∨
    i.isCommand = true ∨ i = .uinit ∨ i = .combine ∨ i = .out := by
  cases h with
  | init | update | final | hash => exact .inr (.inl rfl)
  | uinitInit | uinitHash => exact .inr (.inr (.inl rfl))
  | combineMore | combineEndUpdate | combineEndHash | combineSpill | combineLast =>
    exact .inr (.inr (.inr (.inl rfl)))
  | out => exact .inr (.inr (.inr (.inr rfl)))
  | absorbFull | absorbMore | absorbEndUpdate | absorbEndHash => exact .inl ⟨rfl, .inr rfl⟩
  | _ => exact .inl ⟨rfl, .inl rfl⟩

/-- Settles O52: none of the nine instructions is among the writers. -/
theorem chainIsWrittenOnlyByItsWriters : Obligations.ChainIsWrittenOnlyByItsWriters := by
  intro i s t h hi
  refine (exec_cases h).chain.resolve_right ?_
  rcases hi with rfl | rfl | rfl | rfl | rfl | rfl | rfl | rfl | rfl <;> simp [Instr.isCommand]

/-! ## What an instruction does not read -/

/-! The control registers with which an instruction stops (log entry 11). -/

theorem exec_uinit_stuck {s : State} (h : s.opl = .update ∨ s.opl = .final) :
    exec .uinit s = .fault (.noTransition SeqCode.uinit s.opl) := by
  rcases h with h | h <;> simp only [exec, execUinit, h]

theorem exec_round_stuck {s : State} (h : ¬ s.j.toNat ≤ 79) : exec .round s = .fault (.romIndex s.j) := by
  simp only [exec, execRound, if_neg h]

theorem exec_padlen_stuck {s : State} (h : ¬ (56 ≤ s.p.toNat ∧ s.p.toNat ≤ 63)) :
    exec .padlen s = .fault (.lengthIndex s.p) := by
  simp only [exec, execPadlen, if_neg h]

/-! Two runs side by side. -/

/-- Two outcomes that stop alike, or answer related next states; a refusal is related to nothing. -/
def OutcomeRel (R : State → State → Prop) :
    Host.Outcome State Fault Refusal → Host.Outcome State Fault Refusal → Prop
  | .next t, .next u => R t u
  | .fault r, .fault r' => r = r'
  | _, _ => False

theorem OutcomeRel.of_next {R : State → State → Prop} {o o' : Host.Outcome State Fault Refusal} {t : State}
    (h : OutcomeRel R o o') (ho : o = .next t) : ∃ u, o' = .next u ∧ R t u := by
  subst ho
  cases o' with
  | next u => exact ⟨u, rfl, h⟩
  | fault _ | refused _ => exact h.elim

theorem OutcomeRel.of_fault {R : State → State → Prop} {o o' : Host.Outcome State Fault Refusal} {r : Fault}
    (h : OutcomeRel R o o') (ho : o = .fault r) : o' = .fault r := by
  subst ho
  cases o' with
  | fault r' => exact congrArg _ (Eq.symm h)
  | next _ | refused _ => exact h.elim

theorem OutcomeRel.ne_refused {R : State → State → Prop} {o o' : Host.Outcome State Fault Refusal}
    (h : OutcomeRel R o o') (r : Refusal) : o ≠ .refused r := by
  rintro rfl
  cases o' <;> exact h

/-- Where the sequencer goes after the payload depends on the payload and on `OPL` alone. -/
theorem State.afterPayload_rel {R : State → State → Prop} {s u : State} (here : BitVec 4)
    (hp : u.payload = s.payload) (ho : u.opl = s.opl)
    (more : R { s with seq := SeqCode.absorb } { u with seq := SeqCode.absorb })
    (endUpdate : R s.finishUpdate u.finishUpdate)
    (endHash : R { s with seq := SeqCode.latch } { u with seq := SeqCode.latch }) :
    OutcomeRel R (s.afterPayload here) (u.afterPayload here) := by
  cases hps : s.payload with
  | cons b rest =>
    simp only [State.afterPayload, hp, hps, OutcomeRel]
    simpa only [hp, hps] using more
  | nil =>
    cases hos : s.opl with
    | update => simpa only [State.afterPayload, hp, hps, ho, hos, OutcomeRel] using endUpdate
    | hash =>
      simp only [State.afterPayload, hp, hps, ho, hos, OutcomeRel]
      simpa only [hp, hps, ho, hos] using endHash
    | init | final => simp only [State.afterPayload, hp, hps, ho, hos, OutcomeRel]

/-- The state with another `ERR` and other working registers. -/
def State.withErrLines (s : State) (e : Bool) (l r : Line) : State :=
  { s with err := e, left := l, right := r }

@[simp] theorem State.withErrLines_err (s : State) (e : Bool) (l r : Line) : (s.withErrLines e l r).err = e := rfl

@[simp] theorem State.withErrLines_phase (s : State) (e : Bool) (l r : Line) :
    (s.withErrLines e l r).phase = s.phase := rfl

@[simp] theorem State.withErrLines_p (s : State) (e : Bool) (l r : Line) : (s.withErrLines e l r).p = s.p := rfl

theorem State.createContext_withErrLines (s : State) (e : Bool) (l r : Line) :
    (s.withErrLines e l r).createContext = s.createContext.withErrLines e l r := rfl

/-- What `COMBINE` leaves in the working registers does not depend on what they held. -/
theorem exec_combine_lines (s : State) (l r : Line) :
    OutcomeRel (fun t u => t.left = u.left ∧ t.right = u.right)
      (exec .combine s) (exec .combine (s.withErrLines s.err l r)) := by
  cases hr : s.ret with
  | abs =>
    rw [exec_combine_abs hr, exec_combine_abs (s := s.withErrLines s.err l r) hr]
    exact State.afterPayload_rel _ rfl rfl ⟨rfl, rfl⟩ ⟨rfl, rfl⟩ ⟨rfl, rfl⟩
  | spill =>
    rw [exec_combine_spill hr, exec_combine_spill (s := s.withErrLines s.err l r) hr]
    exact ⟨rfl, rfl⟩
  | last =>
    rw [exec_combine_last hr, exec_combine_last (s := s.withErrLines s.err l r) hr]
    exact ⟨rfl, rfl⟩

/-- Two states that agree but for `ERR`, where `E`, and the working registers, where `L`. An instruction that leaves these
registers alone carries the last two clauses over as they are; one that draws the working registers makes them equal. -/
structure AgreeBut (E L : Prop) (s u : State) : Prop where
  frame : u = s.withErrLines u.err u.left u.right
  err : E ∨ u.err = s.err
  lines : L ∨ u.left = s.left ∧ u.right = s.right

theorem State.computeDigest_withErrLines (s : State) (e : Bool) (l r : Line) :
    (s.withErrLines e l r).computeDigest = s.computeDigest.withErrLines e l r := by
  simp only [State.withErrLines, State.computeDigest, State.count]

theorem State.appendBytes_withErrLines (s : State) (e : Bool) (l r : Line) (data : List Byte) :
    (s.withErrLines e l r).appendBytes data = (s.appendBytes data).withErrLines e l r := by
  simp only [State.withErrLines, State.appendBytes, State.count]

theorem State.finishFinal_withErrLines (s : State) (e : Bool) (l r : Line) :
    (s.withErrLines e l r).finishFinal = { s.finishFinal with err := e } := by
  simp only [State.withErrLines, State.finishFinal, State.respond, State.retire, State.anyTransients,
    State.anyContext, State.digest]

theorem exec_out_withErrLines (s : State) (e : Bool) (l r : Line) :
    exec .out (s.withErrLines e l r) =
      .next (({ s with dout := Memory.ofBytes (serialise s.h) } : State).withErrLines e l r).finishFinal := by
  simp only [exec_out, State.withErrLines]

section
variable {E L : Prop} {s : State} {e : Bool} {l r : Line}

/-- The end of `FINAL` and of `HASH`, which draws the working registers. -/
theorem AgreeBut.finishFinal (s : State) (he : E ∨ e = s.err) :
    AgreeBut E L s.finishFinal (s.withErrLines e l r).finishFinal := by
  rw [State.finishFinal_withErrLines]
  exact ⟨rfl, by simpa using he, .inr ⟨rfl, rfl⟩⟩

theorem AgreeBut.whenIdle {effect effect' : State} (he : E ∨ e = s.err) (hl : L ∨ l = s.left ∧ r = s.right)
    (h : AgreeBut E L effect effect') :
    AgreeBut E L (s.whenIdle effect) ((s.withErrLines e l r).whenIdle effect') := by
  by_cases hs : s.seq = SeqCode.idle
  · rwa [State.whenIdle_of_idle hs, State.whenIdle_of_idle (s := s.withErrLines e l r) hs]
  · rw [State.whenIdle_of_busy hs, State.whenIdle_of_busy (s := s.withErrLines e l r) hs]
    exact ⟨rfl, he, hl⟩

theorem AgreeBut.admitted {effect effect' : State} (hl : L ∨ l = s.left ∧ r = s.right)
    (h : AgreeBut E L effect effect') :
    AgreeBut E L (s.admitted effect) ((s.withErrLines e l r).admitted effect') := by
  rcases s.phase.refusal_cases with ⟨-, hc⟩ | ⟨hp, -⟩ | ⟨-, hc⟩
  · rw [State.admitted_refused hc, State.admitted_refused (s := s.withErrLines e l r) hc]
    exact ⟨rfl, .inr rfl, hl⟩
  · rwa [State.admitted_active hp, State.admitted_active (s := s.withErrLines e l r) hp]
  · rw [State.admitted_refused hc, State.admitted_refused (s := s.withErrLines e l r) hc]
    exact ⟨rfl, .inr rfl, hl⟩

theorem AgreeBut.afterPad (he : E ∨ e = s.err) (hl : L ∨ l = s.left ∧ r = s.right) :
    AgreeBut E L s.afterPad (s.withErrLines e l r).afterPad := by
  unfold State.afterPad
  rw [State.withErrLines_p]
  split_ifs <;> exact ⟨rfl, he, hl⟩

theorem AgreeBut.refuse (hl : L ∨ l = s.left ∧ r = s.right) :
    AgreeBut E L s.refuse (s.withErrLines e l r).refuse := by
  unfold State.refuse
  rw [State.withErrLines_phase]
  cases s.phase.refusal <;> exact ⟨rfl, .inr rfl, hl⟩

theorem AgreeBut.accept (c : Command) (he : E ∨ e = s.err) (hl : L ∨ l = s.left ∧ r = s.right) :
    AgreeBut E L (s.accept c) ((s.withErrLines e l r).accept c) := by
  unfold State.accept
  cases Op.ofBits c.op with
  | init | hash => exact ⟨rfl, he, hl⟩
  | update =>
    rw [State.withErrLines_phase]
    cases s.phase.refusal with
    | some => exact ⟨rfl, he, hl⟩
    | none =>
      cases c.payload with
      | nil => exact ⟨rfl, he, .inr ⟨rfl, rfl⟩⟩
      | cons => exact ⟨rfl, he, hl⟩
  | final =>
    rw [State.withErrLines_phase]
    cases s.phase.refusal <;> exact ⟨rfl, he, hl⟩

theorem AgreeBut.pad (b : Byte) (he : E ∨ e = s.err) (hl : L ∨ l = s.left ∧ r = s.right) :
    OutcomeRel (AgreeBut E L)
      (if s.p.toNat ≤ 63 then .next (s.padByte b).afterPad else .fault (.bufIndex s.p))
      (if (s.withErrLines e l r).p.toNat ≤ 63 then .next ((s.withErrLines e l r).padByte b).afterPad
        else .fault (.bufIndex (s.withErrLines e l r).p)) := by
  rw [State.withErrLines_p]
  split_ifs
  · exact AgreeBut.afterPad (s := s.padByte b) he hl
  · exact rfl

theorem AgreeBut.uinit (he : E ∨ e = s.err) (hl : L ∨ l = s.left ∧ r = s.right) :
    OutcomeRel (AgreeBut E L) (exec .uinit s) (exec .uinit (s.withErrLines e l r)) := by
  cases ho : s.opl with
  | init =>
    rw [exec_uinit_init ho, exec_uinit_init (s := s.withErrLines e l r) ho]
    exact ⟨rfl, he, .inr ⟨rfl, rfl⟩⟩
  | hash =>
    rw [exec_uinit_hash ho, exec_uinit_hash (s := s.withErrLines e l r) ho]
    exact ⟨rfl, he, hl⟩
  | update =>
    rw [exec_uinit_stuck (.inl ho), exec_uinit_stuck (s := s.withErrLines e l r) (.inl ho)]
    exact rfl
  | final =>
    rw [exec_uinit_stuck (.inr ho), exec_uinit_stuck (s := s.withErrLines e l r) (.inr ho)]
    exact rfl

theorem AgreeBut.absorb (he : E ∨ e = s.err) (hl : L ∨ l = s.left ∧ r = s.right) :
    OutcomeRel (AgreeBut E L) (exec .absorb s) (exec .absorb (s.withErrLines e l r)) := by
  cases hp : s.payload with
  | nil =>
    rw [exec_absorb_waits hp, exec_absorb_waits (s := s.withErrLines e l r) hp]
    exact ⟨rfl, he, hl⟩
  | cons b rest =>
    by_cases hn : s.count = 63
    · rw [exec_absorb_full hp hn, exec_absorb_full (s := s.withErrLines e l r) hp hn]
      exact ⟨rfl, he, hl⟩
    · rw [exec_absorb_part hp hn, exec_absorb_part (s := s.withErrLines e l r) hp hn]
      exact State.afterPayload_rel _ rfl rfl ⟨rfl, he, hl⟩ ⟨rfl, he, .inr ⟨rfl, rfl⟩⟩ ⟨rfl, he, hl⟩

theorem AgreeBut.round (he : E ∨ e = s.err) :
    OutcomeRel (AgreeBut E L) (exec .round s) (exec .round (s.withErrLines e s.left s.right)) := by
  by_cases hj : s.j.toNat ≤ 79
  · rw [exec_round hj, exec_round (s := s.withErrLines e s.left s.right) hj]
    exact ⟨rfl, he, .inr ⟨rfl, rfl⟩⟩
  · rw [exec_round_stuck hj, exec_round_stuck (s := s.withErrLines e s.left s.right) hj]
    exact rfl

theorem AgreeBut.combine (he : E ∨ e = s.err) :
    OutcomeRel (AgreeBut E L) (exec .combine s) (exec .combine (s.withErrLines e s.left s.right)) := by
  cases hr : s.ret with
  | abs =>
    rw [exec_combine_abs hr, exec_combine_abs (s := s.withErrLines e s.left s.right) hr]
    exact State.afterPayload_rel _ rfl rfl ⟨rfl, he, .inr ⟨rfl, rfl⟩⟩ ⟨rfl, he, .inr ⟨rfl, rfl⟩⟩
      ⟨rfl, he, .inr ⟨rfl, rfl⟩⟩
  | spill =>
    rw [exec_combine_spill hr, exec_combine_spill (s := s.withErrLines e s.left s.right) hr]
    exact ⟨rfl, he, .inr ⟨rfl, rfl⟩⟩
  | last =>
    rw [exec_combine_last hr, exec_combine_last (s := s.withErrLines e s.left s.right) hr]
    exact ⟨rfl, he, .inr ⟨rfl, rfl⟩⟩

theorem AgreeBut.padlen (he : E ∨ e = s.err) (hl : L ∨ l = s.left ∧ r = s.right) :
    OutcomeRel (AgreeBut E L) (exec .padlen s) (exec .padlen (s.withErrLines e l r)) := by
  by_cases hp : 56 ≤ s.p.toNat ∧ s.p.toNat ≤ 63
  · obtain ⟨hlo, hhi⟩ := hp
    rw [exec_padlen hlo hhi, exec_padlen (s := s.withErrLines e l r) hlo hhi]
    exact ⟨rfl, he, hl⟩
  · rw [exec_padlen_stuck hp, exec_padlen_stuck (s := s.withErrLines e l r) hp]
    exact rfl

end

/-- Only `ROUND` and `COMBINE` read the working registers, and nothing reads `ERR`. -/
theorem AgreeBut.exec {E L : Prop} {s u : State} (i : Instr) (hi : i = .round ∨ i = .combine → ¬ L)
    (h : AgreeBut E L s u) : OutcomeRel (AgreeBut E L) (exec i s) (exec i u) := by
  obtain ⟨hu, he, hl⟩ := h
  generalize u.err = e, u.left = l, u.right = r at *
  subst hu
  cases i with
  | init => exact AgreeBut.whenIdle he hl ⟨rfl, he, .inr ⟨rfl, rfl⟩⟩
  | update data =>
    refine AgreeBut.whenIdle he hl (AgreeBut.admitted hl ?_)
    rw [State.appendBytes_withErrLines]
    exact ⟨rfl, by simpa using he, .inr ⟨rfl, rfl⟩⟩
  | final =>
    refine AgreeBut.whenIdle he hl (AgreeBut.admitted hl ?_)
    rw [State.computeDigest_withErrLines]
    exact AgreeBut.finishFinal _ (by simpa using he)
  | hash data =>
    refine AgreeBut.whenIdle he hl ?_
    rw [State.createContext_withErrLines, State.appendBytes_withErrLines, State.computeDigest_withErrLines]
    exact AgreeBut.finishFinal _ (by simpa using he)
  | idle =>
    cases hp : s.pending with
    | nil =>
      rw [exec_idle_waits hp, exec_idle_waits (s := s.withErrLines e l r) hp]
      exact ⟨rfl, he, hl⟩
    | cons c rest =>
      rw [exec_idle_accepts hp, exec_idle_accepts (s := s.withErrLines e l r) hp]
      exact AgreeBut.accept (s := { s with pending := rest }) c he hl
  | uinit => exact AgreeBut.uinit he hl
  | absorb => exact AgreeBut.absorb he hl
  | load => exact ⟨rfl, he, .inr ⟨rfl, rfl⟩⟩
  | round =>
    obtain ⟨rfl, rfl⟩ := hl.resolve_left (hi (.inl rfl))
    exact AgreeBut.round he
  | combine =>
    obtain ⟨rfl, rfl⟩ := hl.resolve_left (hi (.inr rfl))
    exact AgreeBut.combine he
  | latch => exact ⟨rfl, he, hl⟩
  | out =>
    rw [exec_out, exec_out_withErrLines]
    exact AgreeBut.finishFinal _ he
  | refuse => exact AgreeBut.refuse hl
  | pad80 | padz => exact AgreeBut.pad _ he hl
  | padlen => exact AgreeBut.padlen he hl

/-- The micro-operations between two compressions of a command keep the working registers. -/
theorem ExecCase.lines_kept {i : Instr} {s t : State} (h : ExecCase i s t)
    (hi : i = .latch ∨ i = .pad80 ∨ i = .padz ∨ i = .padlen ∨ (i = .absorb ∧ t.seq ≠ SeqCode.idle)) :
    t.left = s.left ∧ t.right = s.right := by
  cases h with
  | absorbWaits | absorbFull | absorbMore | absorbEndHash | latch | padToLength | padToSpill | padToZero | padlenOn
  | padlenLast | busy => exact ⟨rfl, rfl⟩
  | _ => simp at hi

/-- Settles O9: runs from two states that agree but for `ERR` stop alike, or go on to two such states. -/
theorem errAffectsNoInstruction : Obligations.ErrAffectsNoInstruction := by
  intro i s e
  have h : OutcomeRel (AgreeBut True False) (exec i s) (exec i { s with err := e }) :=
    AgreeBut.exec i (fun _ => id) ⟨rfl, .inl trivial, .inr ⟨rfl, rfl⟩⟩
  refine ⟨fun t ht => ?_, fun r hr => h.of_fault hr, h.ne_refused⟩
  obtain ⟨u, hu, ⟨frame, -, lines⟩⟩ := h.of_next ht
  obtain ⟨hl, hr⟩ := lines.resolve_left id
  refine ⟨u.err, hu.trans ?_⟩
  rw [frame, hl, hr]
  rfl

/-- Settles O53: runs from two states that agree but for the working registers go on to two such states; `COMBINE` draws
them; and between two compressions nothing writes them. -/
theorem workingRegistersAreKeptWithinACommand : Obligations.WorkingRegistersAreKeptWithinACommand := by
  refine ⟨fun i s t l r hround hcombine ht => ?_, fun s t u l r ht hu => ?_, fun i s t ht hi => ?_⟩
  · have h : OutcomeRel (AgreeBut False True) (exec i s) (exec i { s with left := l, right := r }) :=
      AgreeBut.exec i (fun hi => (hi.elim hround hcombine).elim) ⟨rfl, .inr rfl, .inl trivial⟩
    obtain ⟨u, hu, ⟨frame, err, -⟩⟩ := h.of_next ht
    refine ⟨u, hu, ?_⟩
    rw [err.resolve_left id] at frame
    exact frame
  · obtain ⟨u', hu', hlines⟩ := (exec_combine_lines s l r).of_next ht
    cases hu.symm.trans hu'
    exact hlines
  · exact (exec_cases ht).lines_kept hi

/-! ## The context over commands -/

/-- Reading back what was written over an occupied space. -/
theorem Memory.readBytes_writeBytes {m : Memory} (hm : Memory.rising 0 m = true) (bs : List Byte) :
    (m.writeBytes 0 bs).readBytes 0 bs.length = bs := by
  refine List.ext_getElem (by simp) fun i _ hi => ?_
  rw [Memory.getElem_readBytes, Memory.read_writeBytes_inside hm 0 bs i hi]

/-- The bytes an `UPDATE` works on: the buffered ones and the payload (41_update.md R112). -/
def State.pendingBytes (s : State) (data : List Byte) : List Byte := s.buf.readBytes 0 s.count ++ data

@[simp] theorem State.length_pendingBytes (s : State) (data : List Byte) :
    (s.pendingBytes data).length = s.count + data.length := by
  simp [State.pendingBytes]

theorem State.appendBytes_count (s : State) (data : List Byte) :
    (s.appendBytes data).count = (s.pendingBytes data).length % 64 := by
  rw [State.length_pendingBytes]
  simp only [State.count, State.appendBytes_total, addTotal, BitVec.toNat_add, BitVec.toNat_ofNat]
  omega

/-- After `UPDATE` the valid bytes of `BUF` are the pending ones past their last full block. -/
theorem State.readBytes_appendBytes {s : State} (hw : s.buf.wf 64 = true) (data : List Byte) :
    (s.appendBytes data).buf.readBytes 0 (s.appendBytes data).count =
      (s.pendingBytes data).drop (64 * ((s.pendingBytes data).length / 64)) := by
  have hlen : (s.appendBytes data).count =
      ((s.pendingBytes data).drop (64 * ((s.pendingBytes data).length / 64))).length := by
    rw [State.appendBytes_count, List.length_drop]
    omega
  rw [hlen]
  exact (congrArg (fun m => Memory.readBytes m 0 _) (s.appendBytes_buf data)).trans
    (Memory.readBytes_writeBytes (Memory.wf_rising hw) _)

/-- `n` is the length of the message modulo 64 (10_state.md R25). -/
theorem State.Streaming.count {s : State} {m : List Byte} (h : s.Streaming m) : s.count = m.length % 64 := by
  rw [State.count, h.counted, BitVec.toNat_ofNat]
  omega

/-- The pending bytes are the message from its last full block on. -/
theorem State.Streaming.pendingBytes {s : State} {m : List Byte} (h : s.Streaming m) (data : List Byte) :
    s.pendingBytes data = (m ++ data).drop (64 * (m.length / 64)) := by
  rw [State.pendingBytes, h.count, h.buffered, List.drop_append_of_le_length (by omega)]

/-- The effects of `UPDATE` append to the message (10_state.md R38). -/
theorem State.Streaming.appendBytes {s : State} {m : List Byte} (h : s.Streaming m) (hw : s.buf.wf 64 = true)
    (data : List Byte) : (s.appendBytes data).Streaming (m ++ data) := by
  have hq : (m ++ data).length / 64 = m.length / 64 + (s.pendingBytes data).length / 64 := by
    rw [State.length_pendingBytes, h.count, List.length_append]
    omega
  have hr : (s.appendBytes data).count = (m ++ data).length % 64 := by
    rw [State.appendBytes_count, State.length_pendingBytes, h.count, List.length_append]
    omega
  refine ⟨by simpa using h.idle, by simpa using h.active, ?_, ?_, ?_⟩
  · calc (s.appendBytes data).h
      _ = compressBlocks ((s.pendingBytes data).length / 64) (s.pendingBytes data) s.h := s.appendBytes_h data
      _ = compressBlocks ((m ++ data).length / 64) (m ++ data) Rom.iv := by
        rw [hq, compressBlocks_add, compressBlocks_append (by omega), ← h.chain, ← h.pendingBytes]
  · rw [← hr, State.readBytes_appendBytes hw, h.pendingBytes, List.drop_drop, ← Nat.mul_add, ← h.pendingBytes, ← hq]
  · rw [State.appendBytes_total, addTotal, h.counted, ← BitVec.ofNat_add, List.length_append]

theorem State.Streaming.finishUpdate {s : State} {m : List Byte} (h : s.Streaming m) : s.finishUpdate.Streaming m where
  idle := rfl
  active := h.active
  chain := h.chain
  buffered := by rw [← h.count, State.readBytes_finishUpdate, h.count, h.buffered]
  counted := h.counted

/-- Settles O42: the fold over the pending bytes goes on where the fold over the message's full blocks stopped. -/
theorem updateKeepsStreaming : Obligations.UpdateKeepsStreaming := by
  intro s m data hw h
  exact ⟨_, exec_update h.idle h.active data, (h.appendBytes hw data).finishUpdate, State.wf_finishUpdate _, by simp⟩

/-! ## Two engines with the same context -/

section
variable {s u : State}

theorem State.SameContext.count (h : s.SameContext u) (hp : s.phase = .active) : s.count = u.count := by
  rw [State.count, State.count, h.total hp]

theorem State.SameContext.pendingBytes (h : s.SameContext u) (hp : s.phase = .active) (data : List Byte) :
    s.pendingBytes data = u.pendingBytes data := by
  rw [State.pendingBytes, State.pendingBytes, h.buffered hp]

/-- A new context needs only that the engines are idle with the same `ERR`. -/
theorem State.SameContext.createContext (h : s.SameContext u) : s.createContext.SameContext u.createContext where
  idleLeft := h.idleLeft
  idleRight := h.idleRight
  phase := rfl
  err := h.err
  chain _ := rfl
  total _ := rfl
  buffered _ := rfl
  digest hp := by simp at hp

theorem State.SameContext.appendBytes (h : s.SameContext u) (hp : s.phase = .active) (hs : s.buf.wf 64 = true)
    (hu : u.buf.wf 64 = true) (data : List Byte) : (s.appendBytes data).SameContext (u.appendBytes data) where
  idleLeft := by simpa using h.idleLeft
  idleRight := by simpa using h.idleRight
  phase := by simpa using h.phase
  err := by simpa using h.err
  chain _ :=
    calc (s.appendBytes data).h
      _ = compressBlocks ((s.pendingBytes data).length / 64) (s.pendingBytes data) s.h := s.appendBytes_h data
      _ = compressBlocks ((u.pendingBytes data).length / 64) (u.pendingBytes data) u.h := by
        rw [h.pendingBytes hp, h.chain hp]
      _ = (u.appendBytes data).h := (u.appendBytes_h data).symm
  total _ := by rw [State.appendBytes_total, State.appendBytes_total, h.total hp]
  buffered _ := by
    rw [State.readBytes_appendBytes hs, State.readBytes_appendBytes hu, h.pendingBytes hp]
  digest hd := by simp [hp] at hd

theorem State.SameContext.finishInit (h : s.SameContext u) : s.finishInit.SameContext u.finishInit where
  idleLeft := rfl
  idleRight := rfl
  phase := h.phase
  err := h.err
  chain := h.chain
  total := h.total
  buffered := h.buffered
  digest := h.digest

theorem State.SameContext.finishUpdate (h : s.SameContext u) : s.finishUpdate.SameContext u.finishUpdate where
  idleLeft := rfl
  idleRight := rfl
  phase := h.phase
  err := h.err
  chain := h.chain
  total := h.total
  buffered hp := by
    simpa only [State.finishUpdate_count, State.readBytes_finishUpdate] using h.buffered hp
  digest := h.digest

theorem State.SameContext.protocolError (h : s.SameContext u) (code : RspCode) :
    (s.protocolError code).SameContext (u.protocolError code) where
  idleLeft := rfl
  idleRight := rfl
  phase := h.phase
  err := rfl
  chain := h.chain
  total := h.total
  buffered := h.buffered
  digest := h.digest

/-- The digest of an active context is a function of the parts that hold a value. -/
theorem State.SameContext.digest_computeDigest (h : s.SameContext u) (hp : s.phase = .active) :
    s.computeDigest.digest = u.computeDigest.digest := by
  simp only [State.digest, State.computeDigest_dout, h.buffered hp, h.total hp, h.chain hp]

theorem State.SameContext.finishFinal (herr : s.err = u.err) (hd : s.digest = u.digest) :
    s.finishFinal.SameContext u.finishFinal where
  idleLeft := rfl
  idleRight := rfl
  phase := rfl
  err := herr
  chain hp := by simp at hp
  total hp := by simp at hp
  buffered hp := by simp at hp
  digest _ := hd

/-- The phase decides the admission of `UPDATE` and `FINAL`, the same in both engines. -/
theorem State.SameContext.admission (h : s.SameContext u) :
    (s.phase = .active ∧ u.phase = .active) ∨
    ∃ code, s.phase.refusal = some code ∧ u.phase.refusal = some code := by
  rw [← h.phase]
  rcases s.phase.refusal_cases with ⟨-, hr⟩ | ⟨hp, -⟩ | ⟨-, hr⟩
  · exact .inr ⟨_, hr, hr⟩
  · exact .inl ⟨hp, hp⟩
  · exact .inr ⟨_, hr, hr⟩

end

/-- Settles O44: each command is composed of effects that carry `SameContext` over, and the digest of an active context
depends on nothing else. -/
theorem commandsReadNoOpenValue : Obligations.CommandsReadNoOpenValue := by
  intro s u i hi h hs hu
  cases i with
  | init =>
    exact ⟨_, _, exec_init h.idleLeft, exec_init h.idleRight, h.createContext.finishInit, rfl⟩
  | update data =>
    rcases h.admission with ⟨hps, hpu⟩ | ⟨code, hcs, hcu⟩
    · exact ⟨_, _, exec_update h.idleLeft hps data, exec_update h.idleRight hpu data,
        (h.appendBytes hps hs hu data).finishUpdate, by simp⟩
    · exact ⟨_, _, exec_update_refused h.idleLeft hcs data, exec_update_refused h.idleRight hcu data,
        h.protocolError code, rfl⟩
  | final =>
    rcases h.admission with ⟨hps, hpu⟩ | ⟨code, hcs, hcu⟩
    · have hd := h.digest_computeDigest hps
      exact ⟨_, _, exec_final h.idleLeft hps, exec_final h.idleRight hpu,
        State.SameContext.finishFinal (by simpa using h.err) hd, by simp [hd]⟩
    · exact ⟨_, _, exec_final_refused h.idleLeft hcs, exec_final_refused h.idleRight hcu, h.protocolError code, rfl⟩
  | hash data =>
    have hc := h.createContext.appendBytes rfl hs hu data
    have hd := hc.digest_computeDigest (by simp)
    exact ⟨_, _, exec_hash h.idleLeft data, exec_hash h.idleRight data,
      State.SameContext.finishFinal (by simpa using h.err) hd, by simp [hd]⟩
  | _ => simp [Instr.isCommand] at hi

end Sys2Proof.Machine

namespace Sys2Proof.Machine

/-! # The ROM, the message words, the port and the invariant (20_memory.md) -/

/-! ## The invariant -/

/-- Where the sequencer can stand, one case for each code, with the control registers for which 45_sequencer.md R186
has a row there: the control part of `State.Inv`, sorted by `SEQ`. -/
inductive State.Standing (s : State) : Prop where
  | idle : s.seq = SeqCode.idle → s.Standing
  | uinit : s.seq = SeqCode.uinit → s.opl = .init ∨ s.opl = .hash → s.Standing
  | refuse : s.seq = SeqCode.refuse → s.phase ≠ .active → s.Standing
  | absorb : s.seq = SeqCode.absorb → s.phase = .active → s.opl.hasPayload = true → s.Standing
  | load : s.seq = SeqCode.load → s.phase = .active → (s.ret = .abs → s.opl.hasPayload = true) → s.Standing
  | round : s.seq = SeqCode.round → s.phase = .active → (s.ret = .abs → s.opl.hasPayload = true) →
      s.j.toNat ≤ 79 → s.Standing
  | combine : s.seq = SeqCode.combine → s.phase = .active → (s.ret = .abs → s.opl.hasPayload = true) → s.Standing
  | latch : s.seq = SeqCode.latch → s.phase = .active → s.Standing
  | pad80 : s.seq = SeqCode.pad80 → s.phase = .active → s.p.toNat ≤ 63 → s.Standing
  | padz : s.seq = SeqCode.padz → s.phase = .active → s.p.toNat ≤ 63 → s.p ≠ 56#7 → s.Standing
  | padlen : s.seq = SeqCode.padlen → s.phase = .active → 56 ≤ s.p.toNat → s.p.toNat ≤ 63 → s.Standing
  | out : s.seq = SeqCode.out → s.phase = .active → s.Standing

/-- Canonical byte spaces and a standing sequencer are the invariant: a clause of `State.Inv` is about the code the
sequencer stands at, and then given, or about another code. -/
theorem State.Standing.inv {s : State} (h : s.Standing) (hb : s.buf.wf 64 = true) (hd : s.dout.wf 20 = true) :
    s.Inv := by
  cases h <;> constructor <;> simp_all [SeqCode.idle, SeqCode.uinit, SeqCode.absorb, SeqCode.load, SeqCode.round,
    SeqCode.combine, SeqCode.latch, SeqCode.pad80, SeqCode.padz, SeqCode.padlen, SeqCode.out, SeqCode.refuse]

/-- The invariant reads nothing of the host's reset port. -/
theorem State.Inv.withRstIn {s : State} (h : s.Inv) (r : List Nat) : ({ s with rstIn := r } : State).Inv := { h with }

/-- The micro-operation at whose code the sequencer stands is inside an admitted command. -/
theorem State.Inv.active {s : State} (h : s.Inv) {code : BitVec 4} (hq : s.seq = code)
    (hc : code ≠ SeqCode.idle ∧ code ≠ SeqCode.uinit ∧ code ≠ SeqCode.refuse) : s.phase = .active := by
  subst hq
  exact h.commandActive hc.1 hc.2.1 hc.2.2

/-- Every instruction keeps `BUF` and `DOUT` canonical. -/
theorem ExecCase.memories_wf {i : Instr} {s t : State} (h : ExecCase i s t) (hb : s.buf.wf 64 = true)
    (hd : s.dout.wf 20 = true) : t.buf.wf 64 = true ∧ t.dout.wf 20 = true := by
  cases h with
  | update | acceptNothing | absorbEndUpdate | combineEndUpdate => exact ⟨State.wf_finishUpdate _, hd⟩
  | final | hash | out => exact ⟨State.wf_finishFinal _, by simp [wf_serialise]⟩
  | absorbFull | absorbMore | absorbEndHash => exact ⟨Memory.wf_write hb s.count_lt _, hd⟩
  | padToLength | padToSpill | padToZero | padlenOn | padlenLast => exact ⟨State.wf_padByte hb (by omega) _, hd⟩
  | _ => exact ⟨hb, hd⟩

/-- A command accepted in `IDLE` leaves the engine in `IDLE`. -/
theorem ExecCase.command_idle {i : Instr} {s t : State} (h : ExecCase i s t) (hi : i.isCommand = true)
    (hs : s.seq = SeqCode.idle) : t.seq = SeqCode.idle := by
  cases h with
  | busy _ hne => exact absurd hs hne
  | init | update | updateRefused | final | finalRefused | hash => rfl
  | padToLength hp | padToSpill hp | padToZero hp => rcases hp with ⟨rfl, -⟩ | ⟨rfl, -⟩ <;> simp [Instr.isCommand] at hi
  | _ => simp [Instr.isCommand] at hi

/-- `UINIT` leaves the sequencer where `HASH` goes on: at its first byte, or at the padding. -/
theorem State.standing_uinitHash {s : State} (ho : s.opl = .hash) :
    ({ s.createContext with seq := if s.payload = [] then SeqCode.latch else SeqCode.absorb } : State).Standing := by
  by_cases hp : s.payload = []
  · exact .latch (if_pos hp) rfl
  · exact .absorb (if_neg hp) rfl (by simp [ho, Op.hasPayload])

/-- `P` and `J` count on without wrapping: neither is above 79 before it counts. -/
theorem toNat_next {r : BitVec 7} (h : r.toNat < 127) : (r + 1#7).toNat = r.toNat + 1 :=
  BitVec.toNat_add_of_lt (Nat.succ_lt_succ h)

/-- The token of a command is no sequencer code. -/
theorem not_isCommand_of_encode {i : Instr} {code : BitVec 4} (h : encode i = .sequencer code) :
    i.isCommand = false := by
  cases i with
  | init | update | final | hash => simp [encode] at h
  | _ => rfl

/-- The code in `SEQ` at a padding micro-operation. -/
theorem seq_of_pad {i : Instr} {b : Byte} {s : State} (hi : (i = .pad80 ∧ b = 0x80#8) ∨ (i = .padz ∧ b = 0x00#8))
    (hq : encode i = .sequencer s.seq) : s.seq = SeqCode.pad80 ∨ s.seq = SeqCode.padz := by
  rcases hi with ⟨rfl, -⟩ | ⟨rfl, -⟩
  · exact .inl (Token.sequencer.inj hq).symm
  · exact .inr (Token.sequencer.inj hq).symm

/-- Inside the padding the context is active. -/
theorem State.Inv.active_of_pad {s : State} (h : s.Inv) (hq : s.seq = SeqCode.pad80 ∨ s.seq = SeqCode.padz) :
    s.phase = .active :=
  hq.elim (fun hq => h.active hq (by decide)) (fun hq => h.active hq (by decide))

/-- A micro-operation leaves the sequencer at a code its control registers fit (45_sequencer.md R186). -/
theorem ExecCase.standing {i : Instr} {s t : State} (h : ExecCase i s t) (hs : s.Inv)
    (hi : encode i = .sequencer s.seq) : t.Standing := by
  have seq : ∀ {code : BitVec 4}, encode i = .sequencer code → s.seq = code := fun hc =>
    Token.sequencer.inj (hi.symm.trans hc)
  cases h with
  | busy hc => simp [not_isCommand_of_encode hi] at hc
  | init | update | updateRefused | final | finalRefused | hash => exact .idle rfl
  | idleWaits => exact .idle (seq rfl)
  | acceptInit => exact .uinit rfl (.inl rfl)
  | acceptHash => exact .uinit rfl (.inr rfl)
  | acceptRefused _ _ hp => exact .refuse rfl hp
  | acceptNothing | uinitInit | absorbEndUpdate | combineEndUpdate | out | refuse | refuseActive => exact .idle rfl
  | acceptUpdate _ _ hp => exact .absorb rfl hp rfl
  | acceptFinal _ _ hp => exact .latch rfl hp
  | uinitHash ho => exact State.standing_uinitHash ho
  | absorbWaits => exact .absorb (seq rfl) (hs.active (seq rfl) (by decide)) (hs.absorbOp (seq rfl))
  | absorbFull => exact .load rfl (hs.active (seq rfl) (by decide)) fun _ => hs.absorbOp (seq rfl)
  | absorbMore => exact .absorb rfl (hs.active (seq rfl) (by decide)) (hs.absorbOp (seq rfl))
  | absorbEndHash => exact .latch rfl (hs.active (seq rfl) (by decide))
  | load => exact .round rfl (hs.active (seq rfl) (by decide)) (hs.returnOp (.inl (seq rfl))) (Nat.zero_le 79)
  | roundOn hj =>
    have hn := toNat_next (show s.j.toNat < 127 by omega)
    exact .round rfl (hs.active (seq rfl) (by decide)) (hs.returnOp (.inr (.inl (seq rfl)))) (hn.trans_le hj)
  | roundLast => exact .combine rfl (hs.active (seq rfl) (by decide)) (hs.returnOp (.inr (.inl (seq rfl))))
  | combineMore hr => exact .absorb rfl (hs.active (seq rfl) (by decide)) (hs.returnOp (.inr (.inr (seq rfl))) hr)
  | combineEndHash => exact .latch rfl (hs.active (seq rfl) (by decide))
  | combineSpill => exact .padz rfl (hs.active (seq rfl) (by decide)) (Nat.zero_le 63) (by simp)
  | combineLast => exact .out rfl (hs.active (seq rfl) (by decide))
  | latch =>
    have hp : (padStart s.total).toNat < 64 := (toNat_padStart s.total).trans_lt s.count_lt
    exact .pad80 rfl (hs.active (seq rfl) (by decide)) (Nat.le_of_lt_succ hp)
  | padToLength hb hp =>
    have hn := toNat_next (show s.p.toNat < 127 by omega)
    rw [hp] at hn
    exact .padlen rfl (hs.active_of_pad (seq_of_pad hb hi)) hn.ge (hn.trans_le (by decide))
  | padToSpill hb => exact .load rfl (hs.active_of_pad (seq_of_pad hb hi)) (fun hr => by cases hr)
  | padToZero hb hp hl =>
    have hn := toNat_next (show s.p.toNat < 127 by omega)
    refine .padz rfl (hs.active_of_pad (seq_of_pad hb hi)) (hn.trans_le hl) fun e => hp ?_
    exact Nat.succ.inj (hn.symm.trans (congrArg BitVec.toNat e))
  | padlenOn hl hu =>
    have hn := toNat_next (show s.p.toNat < 127 by omega)
    exact .padlen rfl (hs.active (seq rfl) (by decide)) (Nat.le_succ_of_le hl |>.trans_eq hn.symm) (hn.trans_le hu)
  | padlenLast => exact .load rfl (hs.active (seq rfl) (by decide)) (fun hr => by cases hr)

/-- Settles O55: the reset event and a whole command leave the engine in `IDLE`, a micro-operation leaves it standing
where its control registers fit, and each keeps the byte spaces canonical. -/
theorem stepKeepsInv : Obligations.StepKeepsInv := by
  intro s t hs h
  rcases step_exec_cases h with ⟨later, -, rfl⟩ | ⟨r, c, rest, hq, -, -, hc⟩ | ⟨r, i, hi, hc⟩
  · exact (State.Standing.idle rfl).inv s.wf_resetEvent_buf s.wf_resetEvent_dout
  · obtain ⟨hb, hd⟩ := hc.memories_wf hs.bufCanonical hs.doutCanonical
    exact (State.Standing.idle (hc.command_idle (decodeCommand_isCommand c) hq)).inv hb hd
  · obtain ⟨hb, hd⟩ := hc.memories_wf hs.bufCanonical hs.doutCanonical
    exact (hc.standing (hs.withRstIn r) hi).inv hb hd

/-! ## The port -/

/-- Only `IDLE` takes a command from the port, the one at its head. -/
theorem ExecCase.pending {i : Instr} {s t : State} (h : ExecCase i s t) :
    t.pending = s.pending ∨ (i = .idle ∧ ∃ c, s.pending = c :: t.pending) := by
  cases h with
  | acceptInit hp | acceptHash hp | acceptRefused hp | acceptNothing hp | acceptUpdate hp | acceptFinal hp =>
    exact .inr ⟨rfl, _, hp⟩
  | final | hash => exact .inl (by simp)
  | _ => exact .inl rfl

/-- Settles O10: what takes a command is the fetch of a whole command or the micro-operation `IDLE`, both in `IDLE`. -/
theorem commandsAreTakenInOrder : Obligations.CommandsAreTakenInOrder := by
  intro s t h
  rcases step_exec_cases h with ⟨later, -, rfl⟩ | ⟨r, c, rest, hq, -, hp, hc⟩ | ⟨r, i, hi, hc⟩
  · exact .inl rfl
  · refine .inr ⟨hq, c, ?_⟩
    have hcmd := decodeCommand_isCommand c
    have ht : t.pending = rest := hc.pending.resolve_right fun ⟨hidle, _⟩ => by simp [hidle, Instr.isCommand] at hcmd
    rw [hp, ht]
  · refine hc.pending.imp_right fun ⟨hidle, hp⟩ => ⟨?_, hp⟩
    subst hidle
    exact (Token.sequencer.inj hi).symm

/-! ## The message words -/

/-- R52: with the bytes of a 64-bit length at `block[56..63]`, words 14 and 15 are its halves. -/
theorem messageWord_lengthField {block : Nat → Byte} {len : BitVec 64}
    (h : ∀ k, k < 8 → block (56 + k) = len.extractLsb' (8 * k) 8) {i : Nat} (hi : i < 2) :
    messageWord block (14 + i) = len.extractLsb' (32 * i) 32 := by
  have byte : ∀ k, k < 4 → block (4 * (14 + i) + k) = byteOf len (4 * i + k) := fun k hk => by
    rw [show 4 * (14 + i) + k = 56 + (4 * i + k) by omega, h _ (by omega), byteOf_eq_extractLsb']
  have byte0 : block (4 * (14 + i)) = byteOf len (4 * i) := byte 0 (by omega)
  rw [messageWord, byte0, byte 1 (by omega), byte 2 (by omega), byte 3 (by omega), le32_bytes_of_word]

/-- Settles O23: `LOAD` assembles word `i` from `BUF[4i..4i+3]`, and a word is the four bytes it is split into. -/
theorem lengthFieldIsTheLastTwoWords : Obligations.LengthFieldIsTheLastTwoWords := by
  intro s len h
  have low := messageWord_lengthField h (i := 0) (by omega)
  have high := messageWord_lengthField h (i := 1) (by omega)
  exact ⟨_, exec_load s, (messageWords_get _ 14).trans low, (messageWords_get _ 15).trans high⟩

/-! ## The step and the fetch -/

/-- The engine's step runs the instruction the fetched token decodes to. -/
theorem stepEngine_of_decode {s : State} {i : Instr} (h : decode s.fetch.1 = .ok i) :
    stepEngine s = exec i s.fetch.2 := by
  simp only [stepEngine, h]

/-- With a reset due later, a step is the engine's own, the reset one step nearer. -/
theorem step_of_later_reset {s : State} {k : Nat} {later : List Nat} (h : s.rstIn = (k + 1) :: later) :
    step s = stepEngine { s with rstIn := k :: later } := by
  simp only [step, h]

/-- An idle engine that runs whole commands fetches the one at the head of the port. -/
theorem State.fetch_command {s : State} {c : Command} {rest : List Command} (hq : s.seq = SeqCode.idle)
    (hg : s.grain = .command) (hp : s.pending = c :: rest) : s.fetch = (.command c, { s with pending := rest }) := by
  simp only [State.fetch, hq, hg, hp, and_self, if_true]

/-- Where no whole command is fetched, the token is the code in `SEQ`. -/
theorem State.fetch_seq {s : State} (h : s.seq ≠ SeqCode.idle ∨ s.grain = .sequencer ∨ s.pending = []) :
    s.fetch = (.sequencer s.seq, s) := by
  rcases s.fetch_cases with ⟨c, rest, hq, hg, hp, -⟩ | ⟨-, e⟩
  · simp [hq, hg, hp] at h
  · exact e

/-- Settles O4, from the step with no reset due and the two kinds of fetch. -/
theorem stepRunsDecodedInstruction : Obligations.StepRunsDecodedInstruction :=
  ⟨fun _ _ hr hd => (step_of_no_reset hr).trans (stepEngine_of_decode hd),
    fun _ _ _ _ hr hd => (step_of_later_reset hr).trans (stepEngine_of_decode hd),
    fun _ _ _ => State.fetch_command, fun _ => State.fetch_seq⟩

/-! ## The ROM -/

/-- Every row of both word orders is a permutation of the sixteen words (R64, R65). -/
theorem Rom.rows_take_every_word : ∀ (g : Fin 5) (w : Fin 16), (∃ j : Fin 16, (Rom.rl (16 * g + j)).toNat = w) ∧
    (∃ j : Fin 16, (Rom.rr (16 * g + j)).toNat = w) := by decide

/-- Every rotation amount is in 5 to 15 (R66, R67). -/
theorem Rom.rotations_in_range : ∀ j : Fin 80, 5 ≤ (Rom.sl j).toNat ∧ (Rom.sl j).toNat ≤ 15 ∧
    5 ≤ (Rom.sr j).toNat ∧ (Rom.sr j).toNat ≤ 15 := by decide

/-- Settles O26: the tables hold the printed entries, compared one by one, and pass the printed checks. -/
theorem romHoldsTheTables : Obligations.RomHoldsTheTables :=
  ⟨rfl, rfl, rfl, rfl, rfl, rfl, rfl, Rom.rows_take_every_word, Rom.rotations_in_range⟩

end Sys2Proof.Machine

namespace Sys2Proof

/-! # The encoding of instructions (30_encoding.md) -/

/-! ## Commands (R82, R84) -/

/-- The opcode is the code of the operation it selects: no opcode is left over (R86). -/
@[simp] theorem Op.bits_ofBits : ∀ op : BitVec 2, (Op.ofBits op).bits = op := by decide

/-- A well-formed command is the token of its instruction: what a `C0` command does not collect is empty (R82). -/
theorem encode_decodeCommand {c : Command} (h : c.wellFormed = true) : encode (decodeCommand c) = .command c := by
  obtain ⟨op, data⟩ := c
  obtain ⟨o, rfl⟩ : ∃ o : Op, o.bits = op := ⟨_, Op.bits_ofBits op⟩
  cases o with
  | update | hash => rfl
  | init | final =>
    obtain rfl : data = [] := by simpa [Command.wellFormed, Op.bits] using h
    rfl

/-! ## Sequencer codes (R88) -/

/-- No micro-operation has a code from 0xC up. -/
theorem decodeSeq_unused : ∀ {code : BitVec 4}, 0xC ≤ code.toNat → decodeSeq code = .error (.unusedSeq code) := by
  decide

/-! ## Decoding against encoding -/

/-- The token of every instruction has the format of its row (R81, R82, R88). -/
theorem Instr.wellFormed_eq_true (i : Instr) : i.wellFormed = true := by
  cases i with
  | update data => exact Laws.TokenFormat.update data
  | hash data => exact Laws.TokenFormat.hash data
  | _ => rfl

/-- No instruction and no payload is lost in its token. -/
@[simp] theorem decode_encode (i : Instr) : decode (encode i) = .ok i := by
  cases i <;> rfl

/-- No bit of a well-formed token is lost in the instruction it selects. -/
theorem encode_of_decode {t : Token} {i : Instr} (ht : t.wellFormed = true) (h : decode t = .ok i) : encode i = t := by
  cases t with
  | command c =>
    cases h
    exact encode_decodeCommand ht
  | sequencer code => exact Machine.encode_of_decodeSeq h

/-- Settles O1: the two directions of the round trip. -/
theorem encodingIsExact : Obligations.EncodingIsExact :=
  ⟨fun i => ⟨i.wellFormed_eq_true, decode_encode i⟩,
    fun _ i ht => ⟨encode_of_decode ht, fun h => h ▸ decode_encode i⟩⟩

/-- Settles O3: `decodeCommand` is total and answers commands; the unused codes are the decoder's last case. -/
theorem everyCommandDecodes : Obligations.EveryCommandDecodes :=
  ⟨fun c => ⟨_, rfl, Machine.decodeCommand_isCommand c⟩, fun _ => decodeSeq_unused⟩

/-! ## The words of the opcode table (R93) -/

/-- A 2-bit word is read as a command without payload bytes. -/
theorem decodeTableWord_command {w : Nat} (hw : w < 4) :
    decodeTableWord 2 w = some (decodeCommand ⟨BitVec.ofNat 2 w, []⟩) := by
  simp [decodeTableWord, tableToken, hw, decode]

/-- A 4-bit word is read as a value of `SEQ`. -/
theorem decodeTableWord_sequencer {w : Nat} {i : Instr} (hw : w < 16) (h : decodeSeq (BitVec.ofNat 4 w) = .ok i) :
    decodeTableWord 4 w = some i := by
  simp [decodeTableWord, tableToken, hw, decode, h]

/-- Settles O2: four commands, then the twelve codes of `SEQ` in order. -/
theorem tableWordsDecode : Obligations.TableWordsDecode :=
  ⟨decodeTableWord_command (by decide), decodeTableWord_command (by decide),
    decodeTableWord_command (by decide), decodeTableWord_command (by decide),
    decodeTableWord_sequencer (by decide) Machine.decodeSeq_idle,
    decodeTableWord_sequencer (by decide) Machine.decodeSeq_uinit,
    decodeTableWord_sequencer (by decide) Machine.decodeSeq_absorb,
    decodeTableWord_sequencer (by decide) Machine.decodeSeq_load,
    decodeTableWord_sequencer (by decide) Machine.decodeSeq_round,
    decodeTableWord_sequencer (by decide) Machine.decodeSeq_combine,
    decodeTableWord_sequencer (by decide) Machine.decodeSeq_latch,
    decodeTableWord_sequencer (by decide) Machine.decodeSeq_pad80,
    decodeTableWord_sequencer (by decide) Machine.decodeSeq_padz,
    decodeTableWord_sequencer (by decide) Machine.decodeSeq_padlen,
    decodeTableWord_sequencer (by decide) Machine.decodeSeq_out,
    decodeTableWord_sequencer (by decide) Machine.decodeSeq_refuse⟩

end Sys2Proof

namespace Sys2Proof.Machine

/-! ## The step at an unused code (93_implementation_defined.md U11) -/

/-- The engine's step stops at a code the decoder refuses. -/
theorem stepEngine_of_unused {s : State} {code : BitVec 4} (h : decode s.fetch.1 = .error (.unusedSeq code)) :
    stepEngine s = .fault (.unusedSeq code) := by
  simp only [stepEngine, h]

/-- Settles O5: an unused code is not `IDLE`, so the fetch gives it at either level, and the decoder refuses it. -/
theorem stepStopsAtUnusedCode : Obligations.StepStopsAtUnusedCode := by
  intro s hr hc
  have busy : s.seq ≠ SeqCode.idle := fun h => absurd (h ▸ hc) (by decide)
  rw [step_of_no_reset hr]
  apply stepEngine_of_unused
  rw [State.fetch_seq (.inl busy)]
  exact decodeSeq_unused hc

end Sys2Proof.Machine

namespace Sys2Proof.Machine

/-! # `INIT` and `UINIT` (40_init.md) -/

/-- `INIT` leaves nothing of the old context but `ERR`: the engines need not be in the same context before. -/
theorem State.sameContext_createContext {s u : State} (hs : s.seq = SeqCode.idle) (hu : u.seq = SeqCode.idle)
    (he : s.err = u.err) : s.createContext.SameContext u.createContext where
  idleLeft := hs
  idleRight := hu
  phase := rfl
  err := he
  chain _ := rfl
  total _ := rfl
  buffered _ := rfl
  digest hp := by simp at hp

/-- The end of `INIT`, as a frame: the fields R100 writes, the payload and `SEQ`, and what is transient. -/
theorem State.createContext_finishInit_eq (s : State) :
    s.createContext.finishInit = { s.withTransientsOf s.createContext.finishInit with
      h := Rom.iv, total := 0#64, phase := .active, response := some ⟨.ok, none⟩, seq := SeqCode.idle,
      payload := [] } := rfl

/-- Settles O13: `INIT` answers a new context and its response, and an idle engine's `SEQ` is `IDLE` before and after. -/
theorem initCreatesFreshContext : Obligations.InitCreatesFreshContext := by
  intro s hq
  exact ⟨_, exec_init hq, rfl, rfl, rfl, rfl, rfl, s.createContext_finishInit_eq.trans (by rw [← hq]; rfl)⟩

/-- Settles O14: the new contexts agree, and the end of `INIT` carries that over. -/
theorem initForgetsTheContext : Obligations.InitForgetsTheContext := by
  intro s u hs hu he
  exact ⟨_, _, exec_init hs, exec_init hu, (State.sameContext_createContext hs hu he).finishInit, rfl⟩

/-- Settles O15: with `OPL = INIT` the step ends as `INIT` does; with `OPL = HASH` it writes the context and `SEQ` only. -/
theorem uinitLoadsTheContext : Obligations.UinitLoadsTheContext :=
  ⟨fun s ho => ⟨_, exec_uinit_init ho, rfl, rfl, rfl, rfl, rfl, s.createContext_finishInit_eq⟩,
    fun _ ho => ⟨_, exec_uinit_hash ho, rfl, rfl, rfl, rfl, rfl⟩⟩

/-! ## Acceptance in `IDLE` at the sequencer level -/

/-- Acceptance touches neither the host's resets nor the level. -/
theorem State.accept_rstIn_grain (s : State) (c : Command) :
    (s.accept c).rstIn = s.rstIn ∧ (s.accept c).grain = s.grain := by
  rcases s.accept_cases c with ⟨-, e⟩ | ⟨-, e⟩ | ⟨-, -, e⟩ | ⟨-, -, -, e⟩ | ⟨-, -, -, e⟩ | ⟨-, -, e⟩ <;>
    rw [e] <;> exact ⟨rfl, rfl⟩

theorem State.accept_init {c : Command} (s : State) (ho : Op.ofBits c.op = .init) :
    s.accept c = { s with opl := .init, payload := [], response := none, seq := SeqCode.uinit } := by
  simp only [State.accept, ho]

theorem State.accept_refused {s : State} {c : Command} (ho : Op.ofBits c.op = .update ∨ Op.ofBits c.op = .final)
    {code : RspCode} (hc : s.phase.refusal = some code) :
    s.accept c = { s with payload := [], response := none, seq := SeqCode.refuse } := by
  rcases ho with ho | ho <;> simp only [State.accept, ho, hc]

theorem run_one (s : State) : Sys2Proof.core.run 1 s = step s := by
  cases h : step s with
  | next t => exact run_succ_of_next 0 h
  | fault r => exact run_succ_of_fault 0 h
  | refused r => exact run_succ_of_refused 0 h

section
variable {s : State} {c : Command} {rest : List Command} (hq : s.seq = SeqCode.idle) (hg : s.grain = .sequencer)
  (hr : s.rstIn = []) (hp : s.pending = c :: rest)
include hq hg hr hp

/-- The step that takes a command from the port. -/
theorem step_accepts : step s = .next (({ s with pending := rest } : State).accept c) := by
  rw [step_sequencer hr hg (hq ▸ decodeSeq_idle), exec_idle_accepts hp]

/-- Two steps perform acceptance, and then the micro-operation it carries the command to. -/
theorem run_accept_exec {u : State} {i : Instr} (hu : ({ s with pending := rest } : State).accept c = u)
    (hi : decodeSeq u.seq = .ok i) : Sys2Proof.core.run (1 + 1) s = exec i u := by
  obtain ⟨hur, hug⟩ := ({ s with pending := rest } : State).accept_rstIn_grain c
  rw [hu] at hur hug
  have first : step s = .next u := (step_accepts hq hg hr hp).trans (congrArg _ hu)
  have second : step u = exec i u := step_sequencer (hur.trans hr) (hug.trans hg) hi
  exact (run_succ_of_next 1 first).trans ((run_one u).trans second)

/-- Through `UINIT`, whose end overwrites what acceptance wrote. -/
theorem run_init (ho : Op.ofBits c.op = .init) :
    Sys2Proof.core.run (1 + 1) s = .next ({ s with pending := rest } : State).createContext.finishInit :=
  (run_accept_exec hq hg hr hp (State.accept_init _ ho) decodeSeq_uinit).trans (exec_uinit_init rfl)

/-- Through `REFUSE`, whose `ProtocolError` overwrites what acceptance wrote. -/
theorem run_refused (ho : Op.ofBits c.op = .update ∨ Op.ofBits c.op = .final) {code : RspCode}
    (hc : s.phase.refusal = some code) :
    Sys2Proof.core.run (1 + 1) s = .next (({ s with pending := rest } : State).protocolError code) :=
  (run_accept_exec hq hg hr hp (State.accept_refused ho hc) decodeSeq_refuse).trans (exec_refuse_refused hc)

end

/-! ## `INIT` and a refused command, at both levels -/

theorem exec_command_init {s : State} {c : Command} (ho : Op.ofBits c.op = .init) (hq : s.seq = SeqCode.idle) :
    exec (decodeCommand c) s = .next s.createContext.finishInit := by
  simp only [decodeCommand, ho, exec_init hq]

/-- A command with the admission check, refused as a whole command. -/
theorem exec_command_refused {s : State} {c : Command} (ho : Op.ofBits c.op = .update ∨ Op.ofBits c.op = .final)
    {code : RspCode} (hq : s.seq = SeqCode.idle) (hc : s.phase.refusal = some code) :
    exec (decodeCommand c) s = .next (s.protocolError code) := by
  rcases ho with ho | ho
  · simp only [decodeCommand, ho, exec_update_refused hq hc]
  · simp only [decodeCommand, ho, exec_final_refused hq hc]

theorem Phase.refusal_of_ne_active {p : Phase} (h : p ≠ .active) : ∃ code, p.refusal = some code := by
  rcases p.refusal_cases with ⟨-, hc⟩ | ⟨ha, -⟩ | ⟨-, hc⟩
  · exact ⟨_, hc⟩
  · exact absurd ha h
  · exact ⟨_, hc⟩

/-- Settles O57: acceptance carries the command to `UINIT` or `REFUSE`, and the step there ends in the state the whole
command answers. -/
theorem sequencerRunsInitAndRefusals : Obligations.SequencerRunsInitAndRefusals := by
  intro s c rest hq hg hr hp hc
  rcases hc with hop | ⟨hop, hph⟩
  · have ho : Op.ofBits c.op = .init := by rw [hop]; rfl
    exact (run_init hq hg hr hp ho).trans (exec_command_init (s := { s with pending := rest }) ho hq).symm
  · have ho : Op.ofBits c.op = .update ∨ Op.ofBits c.op = .final :=
      hop.imp (fun h => by rw [h]; rfl) (fun h => by rw [h]; rfl)
    obtain ⟨code, hcode⟩ := Phase.refusal_of_ne_active hph
    exact (run_refused hq hg hr hp ho hcode).trans
      (exec_command_refused (s := { s with pending := rest }) ho hq hcode).symm

end Sys2Proof.Machine

namespace Sys2Proof.Machine

/-! # `UPDATE` and `ABSORB` (41_update.md) -/

/-! ## The counter -/

/-- Settles O19: `TOTAL` is 2^32 times its high half and its low half, and the sum is taken modulo 2^64. -/
theorem counterAddsOnHalves : Obligations.CounterAddsOnHalves := by
  intro s t ilen ht
  have hsum : t.total.toNat = (s.total.toNat + ilen % 2 ^ 64) % 2 ^ 64 := by
    rw [ht, addTotal, BitVec.toNat_add, BitVec.toNat_ofNat]
  have hlt := s.total.isLt
  simp only [State.totalLo, State.totalHi, BitVec.toNat_setWidth, BitVec.toNat_ushiftRight, Nat.shiftRight_eq_div_pow,
    hsum]
  omega

/-! ## One payload byte -/

section
variable {s : State} {b : Byte} {rest : List Byte}

/-- `TOTAL mod 64` counts the byte (41_update.md R114). -/
theorem State.absorbed_count (s : State) (b : Byte) (rest : List Byte) :
    (s.absorbed b rest).count = (s.count + 1) % 64 := by
  simp only [State.count, State.absorbed_total, addTotal, BitVec.toNat_add, BitVec.toNat_ofNat]
  omega

theorem State.read_absorbed_same (hw : s.buf.wf 64 = true) : (s.absorbed b rest).buf.read s.count = b :=
  Memory.read_write_same (Memory.wf_rising hw) _ _

theorem State.read_absorbed_ne {a : Nat} (ha : a ≠ s.count) : (s.absorbed b rest).buf.read a = s.buf.read a :=
  Memory.read_write_ne _ _ ha

/-- Where `ABSORB` ends an `UPDATE`, the byte it took and those before it stay. -/
theorem State.read_finishUpdate_absorbed {a : Nat} (hn : s.count ≠ 63) (ha : a ≤ s.count) :
    (s.absorbed b rest).finishUpdate.buf.read a = (s.absorbed b rest).buf.read a := by
  have hlt := s.count_lt
  refine State.read_finishUpdate _ ?_
  rw [State.absorbed_count]
  omega

end

/-- Settles O20: a full block, and the three rows of R186 for a block that is not full. -/
theorem absorbTakesOneByte : Obligations.AbsorbTakesOneByte := by
  intro s b rest hp hw ho
  have same : (s.absorbed b rest).buf.read s.count = b := State.read_absorbed_same hw
  have other : ∀ a, a ≠ s.count → (s.absorbed b rest).buf.read a = s.buf.read a := fun _ => State.read_absorbed_ne
  by_cases hn : s.count = 63
  · refine ⟨_, exec_absorb_full hp hn, rfl, fun _ => ?_, fun h => absurd hn h, fun h => absurd hn h,
      fun h => absurd hn h⟩
    rw [hn] at same other
    exact ⟨rfl, rfl, rfl, same, other, rfl⟩
  · rcases (s.absorbed b rest).afterPayload_cases SeqCode.absorb with
      ⟨hr, e⟩ | ⟨hr, hu, e⟩ | ⟨hr, hh, e⟩ | ⟨-, hs, -⟩
    · exact ⟨_, (exec_absorb_part hp hn).trans e, rfl, fun h => absurd h hn, fun _ _ => ⟨same, other, rfl⟩,
        fun _ h => absurd h hr, fun _ h => absurd h hr⟩
    · refine ⟨_, (exec_absorb_part hp hn).trans e, rfl, fun h => absurd h hn, fun _ h => absurd hr h,
        fun _ _ h => ?_, fun _ _ _ => ⟨?_, fun a ha => ?_, rfl, rfl⟩⟩
      · cases hu.symm.trans h
      · exact (State.read_finishUpdate_absorbed hn le_rfl).trans same
      · exact (State.read_finishUpdate_absorbed hn ha.le).trans (other a ha.ne)
    · cases hr
      refine ⟨_, (exec_absorb_part hp hn).trans e, rfl, fun h => absurd h hn, fun _ h => absurd rfl h,
        fun _ _ _ => ⟨same, other, rfl⟩, fun _ _ h => ?_⟩
      cases hh.symm.trans h
    · rcases hs with hs | hs <;> simp [show s.opl = _ from hs, Op.hasPayload] at ho

/-! ## The bytes appended -/

/-- The fold over the first blocks, each block by its place (41_update.md R112). -/
theorem compressBlocks_eq_foldl_range (q : Nat) (bytes : List Byte) (h : Chain) :
    compressBlocks q bytes h =
      (List.range q).foldl (fun h k => compress h ((bytes.drop (64 * k)).take 64)) h := by
  induction q with
  | zero => simp
  | succ q ih => rw [compressBlocks_add, compressBlocks_one, ih, List.range_succ, List.foldl_append]; rfl

theorem State.appendBytes_h_pendingBytes (s : State) (data : List Byte) :
    (s.appendBytes data).h = compressBlocks ((s.pendingBytes data).length / 64) (s.pendingBytes data) s.h :=
  s.appendBytes_h data

/-- Each full block makes one draw. -/
theorem State.appendBytes_draws_eq (s : State) (data : List Byte) :
    (s.appendBytes data).draws = s.draws + (s.count + data.length) / 64 := by
  rw [State.appendBytes_draws, List.length_append, Memory.length_readBytes]

theorem State.wf_appendBytes {s : State} (hw : s.buf.wf 64 = true) (data : List Byte) :
    (s.appendBytes data).buf.wf 64 = true := by
  rw [State.appendBytes_buf]
  refine Memory.wf_writeBytes hw ?_
  rw [List.length_drop]
  omega

/-- After `UPDATE`, `BUF[i]` is the pending byte `i` places past the last full block. -/
theorem State.read_appendBytes {s : State} (hw : s.buf.wf 64 = true) (data : List Byte) {i : Nat}
    (hi : i < (s.pendingBytes data).length % 64) :
    (s.pendingBytes data)[64 * ((s.pendingBytes data).length / 64) + i]? = some ((s.appendBytes data).buf.read i) := by
  have h := congrArg (fun l => l[i]?) (State.readBytes_appendBytes hw data)
  rw [← State.appendBytes_count] at hi
  simp only [Memory.getElem?_readBytes, if_pos hi, List.getElem?_drop, Nat.zero_add] at h
  exact h.symm

/-- The end of an admitted `UPDATE`, as a frame. -/
theorem State.appendBytes_finishUpdate_eq {s : State} (hq : s.seq = SeqCode.idle) (data : List Byte) :
    (s.appendBytes data).finishUpdate = { s.withTransientsOf (s.appendBytes data).finishUpdate with
      h := (s.appendBytes data).h, buf := (s.appendBytes data).finishUpdate.buf, total := (s.appendBytes data).total,
      response := some ⟨.ok, none⟩, payload := [] } := by
  ext <;> simp [State.withTransientsOf, hq]

/-- Settles O16: the effects on `H`, `BUF`, `TOTAL`, the end of the command keeping the valid bytes; and the refusal. -/
theorem updateAppendsThePayload : Obligations.UpdateAppendsThePayload := by
  refine ⟨fun s data code hq hc => exec_update_refused hq hc data, fun s data hq hp hw => ?_⟩
  refine ⟨_, exec_update hq hp data, ?_, fun i hi => ?_, s.appendBytes_total data, s.appendBytes_count data, rfl,
    State.appendBytes_finishUpdate_eq hq data⟩
  · exact (s.appendBytes_h_pendingBytes data).trans (compressBlocks_eq_foldl_range _ _ _)
  · have hi' : i < (s.appendBytes data).count := hi.trans_eq (s.appendBytes_count data).symm
    rw [State.read_finishUpdate _ hi']
    exact State.read_appendBytes hw data hi

/-! ## States with the same context registers -/

/-- The same `H`, `TOTAL` and valid `BUF` bytes: the part of a state that 41_update.md R117 is about. -/
structure State.SameData (s u : State) : Prop where
  chain : s.h = u.h
  total : s.total = u.total
  buffered : s.buf.readBytes 0 s.count = u.buf.readBytes 0 u.count

/-- The same context registers, and all else but the transients, `SEQ` and the ports' data of one command: all that the
end of `UPDATE` keeps. -/
structure State.SameKept (s u : State) : Prop extends s.SameData u where
  phase : s.phase = u.phase
  err : s.err = u.err
  dout : s.dout = u.dout
  pending : s.pending = u.pending
  rstIn : s.rstIn = u.rstIn
  grain : s.grain = u.grain
  draws : s.draws = u.draws

section
variable {s u v : State}

theorem State.SameData.trans (h : s.SameData u) (h' : u.SameData v) : s.SameData v where
  chain := h.chain.trans h'.chain
  total := h.total.trans h'.total
  buffered := h.buffered.trans h'.buffered

theorem State.SameKept.trans (h : s.SameKept u) (h' : u.SameKept v) : s.SameKept v where
  toSameData := h.toSameData.trans h'.toSameData
  phase := h.phase.trans h'.phase
  err := h.err.trans h'.err
  dout := h.dout.trans h'.dout
  pending := h.pending.trans h'.pending
  rstIn := h.rstIn.trans h'.rstIn
  grain := h.grain.trans h'.grain
  draws := h.draws.trans h'.draws

theorem State.SameData.count (h : s.SameData u) : s.count = u.count := by
  rw [State.count, State.count, h.total]

theorem State.SameData.pendingBytes (h : s.SameData u) (data : List Byte) :
    s.pendingBytes data = u.pendingBytes data := by
  rw [State.pendingBytes, State.pendingBytes, h.buffered]

/-- What `UPDATE` does to the context registers depends on them and the payload alone. -/
theorem State.SameData.appendBytes (h : s.SameData u) (hs : s.buf.wf 64 = true) (hu : u.buf.wf 64 = true)
    (data : List Byte) : (s.appendBytes data).SameData (u.appendBytes data) where
  chain := by rw [State.appendBytes_h_pendingBytes, State.appendBytes_h_pendingBytes, h.pendingBytes, h.chain]
  total := by rw [State.appendBytes_total, State.appendBytes_total, h.total]
  buffered := by rw [State.readBytes_appendBytes hs, State.readBytes_appendBytes hu, h.pendingBytes]

theorem State.SameKept.appendBytes (h : s.SameKept u) (hs : s.buf.wf 64 = true) (hu : u.buf.wf 64 = true)
    (data : List Byte) : (s.appendBytes data).SameKept (u.appendBytes data) where
  toSameData := h.toSameData.appendBytes hs hu data
  phase := by simpa using h.phase
  err := by simpa using h.err
  dout := by simpa using h.dout
  pending := by simpa using h.pending
  rstIn := by simpa using h.rstIn
  grain := by simpa using h.grain
  draws := by rw [State.appendBytes_draws_eq, State.appendBytes_draws_eq, h.count, h.draws]

/-- The end of `UPDATE` leaves the context registers. -/
theorem State.sameData_finishUpdate (s : State) : s.finishUpdate.SameData s where
  chain := rfl
  total := rfl
  buffered := s.readBytes_finishUpdate

/-- What the end of `UPDATE` draws depends on the draw counter and the number of valid bytes alone. -/
theorem State.SameKept.finishUpdate_eq (h : s.SameKept u) : s.finishUpdate = u.finishUpdate := by
  have hbuf : s.buf.readBytes 0 u.count = u.buf.readBytes 0 u.count := h.count ▸ h.buffered
  simp only [State.finishUpdate, State.respond, State.retire, State.anyTransients, State.anyTail, h.chain, h.total,
    hbuf, h.count, h.phase, h.err, h.dout, h.pending, h.rstIn, h.grain, h.draws]

end

/-! ## Payloads one after the other -/

/-- The buffered bytes are less than a block (10_state.md R25). -/
theorem State.blocks_nil (s : State) : (s.pendingBytes []).length / 64 = 0 := by
  rw [State.length_pendingBytes]
  exact Nat.div_eq_of_lt s.count_lt

/-- Nothing appended: no full block is pending, and the valid bytes are written over themselves. -/
theorem State.sameKept_appendBytes_nil {s : State} (hw : s.buf.wf 64 = true) : (s.appendBytes []).SameKept s where
  chain := by rw [State.appendBytes_h_pendingBytes, s.blocks_nil, compressBlocks_zero]
  total := by simp [addTotal]
  buffered := by
    rw [State.readBytes_appendBytes hw, s.blocks_nil, Nat.mul_zero, List.drop_zero, State.pendingBytes, List.append_nil]
  phase := s.appendBytes_phase []
  err := s.appendBytes_err []
  dout := s.appendBytes_dout []
  pending := s.appendBytes_pending []
  rstIn := s.appendBytes_rstIn []
  grain := s.appendBytes_grain []
  draws := by rw [State.appendBytes_draws_eq, ← State.length_pendingBytes, s.blocks_nil, Nat.add_zero]

section
variable {s : State} (hw : s.buf.wf 64 = true) (front back : List Byte)

theorem State.pendingBytes_append (s : State) (front back : List Byte) :
    s.pendingBytes (front ++ back) = s.pendingBytes front ++ back :=
  (List.append_assoc _ _ _).symm

include hw in
/-- What is pending after the first payload is what is pending at the end, past the blocks of the first. -/
theorem State.pendingBytes_appendBytes : (s.appendBytes front).pendingBytes back =
    (s.pendingBytes (front ++ back)).drop (64 * ((s.pendingBytes front).length / 64)) := by
  rw [State.pendingBytes, State.readBytes_appendBytes hw, State.pendingBytes_append,
    List.drop_append_of_le_length (by omega)]

/-- The full blocks of two payloads together are those of the first and those the second completes. -/
theorem State.blocks_append (s : State) (front back : List Byte) : (s.pendingBytes (front ++ back)).length / 64 =
    (s.pendingBytes front).length / 64 + ((s.appendBytes front).pendingBytes back).length / 64 := by
  simp only [State.length_pendingBytes, State.appendBytes_count, List.length_append]
  omega

include hw in
/-- R117 for two payloads: the fold over the blocks of the second goes on where that over the first stopped. -/
theorem State.sameKept_appendBytes_append :
    ((s.appendBytes front).appendBytes back).SameKept (s.appendBytes (front ++ back)) := by
  have hrest := State.pendingBytes_appendBytes hw front back
  have hblocks := s.blocks_append front back
  refine ⟨⟨?_, ?_, ?_⟩, by simp, by simp, by simp, by simp, by simp, by simp, ?_⟩
  · calc ((s.appendBytes front).appendBytes back).h
      _ = compressBlocks (((s.appendBytes front).pendingBytes back).length / 64)
            ((s.pendingBytes (front ++ back)).drop (64 * ((s.pendingBytes front).length / 64)))
            (compressBlocks ((s.pendingBytes front).length / 64) (s.pendingBytes (front ++ back)) s.h) := by
        rw [State.appendBytes_h_pendingBytes, State.appendBytes_h_pendingBytes, ← hrest, State.pendingBytes_append,
          compressBlocks_append (by omega)]
      _ = (s.appendBytes (front ++ back)).h := by
        rw [← compressBlocks_add, ← hblocks, State.appendBytes_h_pendingBytes]
  · simp only [State.appendBytes_total, addTotal, List.length_append, BitVec.ofNat_add, BitVec.add_assoc]
  · rw [State.readBytes_appendBytes (State.wf_appendBytes hw front), State.readBytes_appendBytes hw, hblocks, hrest,
      List.drop_drop, Nat.mul_add]
  · have h := hblocks
    simp only [State.length_pendingBytes] at h
    rw [State.appendBytes_draws_eq, State.appendBytes_draws_eq, State.appendBytes_draws_eq, h, Nat.add_assoc]

end

/-- Any number of `UPDATE` commands append what their payloads append together (41_update.md R117). -/
theorem execUpdates_sameData (chunks : List (List Byte)) {s : State} (hq : s.seq = SeqCode.idle)
    (hp : s.phase = .active) (hw : s.buf.wf 64 = true) :
    ∃ t, execUpdates chunks s = .next t ∧ t.SameData (s.appendBytes chunks.flatten) := by
  induction chunks generalizing s with
  | nil =>
    obtain ⟨hh, ht, hb⟩ := (State.sameKept_appendBytes_nil hw).toSameData
    exact ⟨s, rfl, hh.symm, ht.symm, hb.symm⟩
  | cons d ds ih =>
    have hw' := State.wf_appendBytes hw d
    have hphase : (s.appendBytes d).finishUpdate.phase = .active := (s.appendBytes_phase d).trans hp
    obtain ⟨t, ht, hdata⟩ := ih (s := (s.appendBytes d).finishUpdate) rfl hphase (State.wf_finishUpdate _)
    have hfirst := (State.sameData_finishUpdate _).appendBytes (State.wf_finishUpdate _) hw' ds.flatten
    have hboth := (State.sameKept_appendBytes_append hw d ds.flatten).toSameData
    refine ⟨t, ?_, hdata.trans (hfirst.trans hboth)⟩
    simp only [execUpdates, exec_update hq hp, ht]

/-- Settles O18: both ways leave the context registers of one append. -/
theorem updateIsChunkInvariant : Obligations.UpdateIsChunkInvariant := by
  intro chunks s hq hp hw
  obtain ⟨t, ht, hh, htotal, hbuf⟩ := execUpdates_sameData chunks hq hp hw
  exact ⟨t, _, ht, exec_update hq hp _, hh, htotal, hbuf.trans (State.sameData_finishUpdate _).buffered.symm⟩

/-! ## The empty payload -/

/-- A zero-length `UPDATE` is the end of an `UPDATE` alone. -/
theorem State.appendBytes_nil_finishUpdate {s : State} (hw : s.buf.wf 64 = true) :
    (s.appendBytes []).finishUpdate = s.finishUpdate :=
  (State.sameKept_appendBytes_nil hw).finishUpdate_eq

theorem State.sameContext_finishUpdate {s : State} (hq : s.seq = SeqCode.idle) : s.SameContext s.finishUpdate where
  idleLeft := hq
  idleRight := rfl
  phase := rfl
  err := rfl
  chain _ := rfl
  total _ := rfl
  buffered _ := s.readBytes_finishUpdate.symm
  digest _ := rfl

theorem State.finishFinal_digest (s : State) : s.finishFinal.digest = s.digest := by
  rw [State.digest, State.digest, State.finishFinal_dout]

/-- Settles O17: the end of an `UPDATE` keeps the context, on which alone the digest depends. -/
theorem updateOfNothingIsNoOp : Obligations.UpdateOfNothingIsNoOp := by
  refine ⟨fun s hq hp hw => ?_, fun s code hq hc => exec_update_refused hq hc []⟩
  have hupdate := exec_update hq hp []
  rw [State.appendBytes_nil_finishUpdate hw] at hupdate
  have hsame := State.sameContext_finishUpdate hq
  refine ⟨_, _, _, hupdate, hsame, rfl, rfl, exec_final hq hp, exec_final rfl hp, ?_⟩
  rw [State.finishFinal_digest, State.finishFinal_digest, hsame.digest_computeDigest hp]

/-! ## The compression through the sequencer -/

/-- The step of an engine inside a command, at either level. -/
theorem step_busy {s : State} (hr : s.rstIn = []) (hb : s.seq ≠ SeqCode.idle) {i : Instr}
    (hd : decodeSeq s.seq = .ok i) : step s = exec i s := by
  have hf := State.fetch_seq (s := s) (.inl hb)
  rw [step_of_no_reset hr, stepEngine_of_decode (i := i) (by rw [hf]; exact hd), hf]

/-- The state after `LOAD` and `n` rounds (42_compress.md R140): `J` counts to 79, and `COMBINE` follows round 79. -/
def State.afterRounds (s : State) (n : Nat) : State :=
  { s with
    x := messageWords s.buf.read
    left := leftRounds (messageWords s.buf.read) (Line.ofChain s.h) n
    right := rightRounds (messageWords s.buf.read) (Line.ofChain s.h) n
    j := BitVec.ofNat 7 (min n 79)
    seq := if n ≤ 79 then SeqCode.round else SeqCode.combine }

/-- The sequencer at `COMBINE`, with what a compression writes before it (R136, R138). -/
def State.beforeCombine (s : State) (x : Vector Word 16) (l r : Line) (j : BitVec 7) : State :=
  { s with x := x, left := l, right := r, j := j, seq := SeqCode.combine }

theorem State.afterRounds_eq_beforeCombine (s : State) {n : Nat} (hn : 79 < n) :
    s.afterRounds n = s.beforeCombine (messageWords s.buf.read)
      (leftRounds (messageWords s.buf.read) (Line.ofChain s.h) n)
      (rightRounds (messageWords s.buf.read) (Line.ofChain s.h) n) (BitVec.ofNat 7 (min n 79)) := by
  simp only [State.afterRounds, State.beforeCombine, if_neg (Nat.not_le.mpr hn)]

theorem exec_load_eq_afterRounds (s : State) : exec .load s = .next (s.afterRounds 0) := rfl

theorem State.toNat_afterRounds_j (s : State) {n : Nat} (hn : n ≤ 79) : (s.afterRounds n).j.toNat = n := by
  simp only [State.afterRounds, BitVec.toNat_ofNat]
  omega

theorem exec_round_afterRounds (s : State) {n : Nat} (hn : n ≤ 79) :
    exec .round (s.afterRounds n) = .next (s.afterRounds (n + 1)) := by
  have hn' := s.toNat_afterRounds_j hn
  have hlast : (s.afterRounds n).j = 79#7 ↔ n = 79 := by rw [← BitVec.toNat_inj, hn']; rfl
  have hj : (if n = 79 then (s.afterRounds n).j else (s.afterRounds n).j + 1#7) = (s.afterRounds (n + 1)).j := by
    apply BitVec.eq_of_toNat_eq
    split
    · rw [hn']
      simp only [State.afterRounds, BitVec.toNat_ofNat]
      omega
    · rw [s.toNat_afterRounds_j (n := n + 1) (by omega), toNat_next (by omega), hn']
  have hseq : (if n = 79 then SeqCode.combine else SeqCode.round) = (s.afterRounds (n + 1)).seq := by
    by_cases h : n = 79
    · exact (if_pos h).trans (if_neg (by omega)).symm
    · exact (if_neg h).trans (if_pos (by omega)).symm
  rw [exec_round (hn'.trans_le hn), hn']
  simp only [hlast, hj, hseq]
  rfl

/-- `LOAD` and `n` rounds take `1 + n` steps (45_sequencer.md R187). -/
theorem run_load_rounds {s : State} (hr : s.rstIn = []) (hq : s.seq = SeqCode.load) {n : Nat} (hn : n ≤ 80) :
    Sys2Proof.core.run (1 + n) s = .next (s.afterRounds n) := by
  induction n with
  | zero =>
    have hstep : step s = exec .load s := step_busy hr (by rw [hq]; decide) (hq ▸ decodeSeq_load)
    exact (run_one s).trans (hstep.trans (exec_load_eq_afterRounds s))
  | succ n ih =>
    have hround : (s.afterRounds n).seq = SeqCode.round := if_pos (by omega)
    have hstep : step (s.afterRounds n) = .next (s.afterRounds (n + 1)) :=
      (step_busy (s := s.afterRounds n) hr (by rw [hround]; decide) (hround ▸ decodeSeq_round)).trans
        (exec_round_afterRounds s (by omega))
    exact (run_add _ 1 (ih (by omega))).trans ((run_one _).trans hstep)

/-- A compression through the sequencer: `LOAD` and the 80 rounds write nothing but its transients, and `COMBINE` of the
two lines completes `Compress` of `BUF` (R130). -/
theorem run_compression {s : State} (hr : s.rstIn = []) (hq : s.seq = SeqCode.load) :
    ∃ x l r j, Sys2Proof.core.run 81 s = .next (s.beforeCombine x l r j) ∧
      combineLines s.h l r = compress s.h (s.buf.readBytes 0 64) := by
  have hrun := run_load_rounds hr hq (n := 80) le_rfl
  rw [State.afterRounds_eq_beforeCombine s (by decide)] at hrun
  exact ⟨_, _, _, _, hrun, by rw [compress_readBytes, compressWords]⟩

/-- A compression of `UPDATE` or `HASH` and its `COMBINE`: 82 steps (R187). -/
theorem run_compression_abs {s : State} (hr : s.rstIn = []) (hq : s.seq = SeqCode.load) (hret : s.ret = .abs) :
    ∃ x l r j, Sys2Proof.core.run (81 + 1) s = (s.beforeCombine x l r j).foldLines.afterPayload SeqCode.combine ∧
      combineLines s.h l r = compress s.h (s.buf.readBytes 0 64) := by
  obtain ⟨x, l, r, j, hrun, hh⟩ := run_compression hr hq
  have hcombine : step (s.beforeCombine x l r j) = exec .combine (s.beforeCombine x l r j) :=
    step_busy (s := s.beforeCombine x l r j) hr (show SeqCode.combine ≠ SeqCode.idle by decide) decodeSeq_combine
  exact ⟨x, l, r, j, (run_add 81 1 hrun).trans ((run_one _).trans (hcombine.trans (exec_combine_abs hret))), hh⟩

/-! ## Bytes absorbed through the sequencer -/

theorem Memory.readBytes_succ (m : Memory) (a n : Nat) : m.readBytes a (n + 1) = m.readBytes a n ++ [m.read (a + n)] := by
  induction n generalizing a with
  | zero => rfl
  | succ n ih => rw [Memory.readBytes, ih, Memory.readBytes, Nat.add_right_comm, Nat.add_assoc, List.cons_append]

section
variable {s : State} {b : Byte} {rest : List Byte}

/-- `BUF` after the byte holds what is pending with it. -/
theorem State.readBytes_absorbed (hw : s.buf.wf 64 = true) :
    (s.absorbed b rest).buf.readBytes 0 (s.count + 1) = s.pendingBytes [b] := by
  rw [Memory.readBytes_succ, Nat.zero_add, State.read_absorbed_same hw, State.pendingBytes]
  refine congrArg (· ++ [b]) (Memory.readBytes_congr fun i hi => State.read_absorbed_ne ?_)
  omega

/-- A byte that completes no block leaves what `UPDATE` of this byte leaves. -/
theorem State.sameKept_absorbed (hw : s.buf.wf 64 = true) (hn : s.count ≠ 63) :
    (s.absorbed b rest).SameKept (s.appendBytes [b]) := by
  have hlt := s.count_lt
  have hq : (s.count + [b].length) / 64 = 0 := Nat.div_eq_of_lt (by simp; omega)
  have hcount : (s.absorbed b rest).count = s.count + 1 := (s.absorbed_count b rest).trans (Nat.mod_eq_of_lt (by omega))
  refine ⟨⟨?_, ?_, ?_⟩, by simp, by simp, by simp, by simp, by simp, by simp, ?_⟩
  · rw [State.appendBytes_h_pendingBytes, State.length_pendingBytes, hq, compressBlocks_zero, State.absorbed_h]
  · rw [State.appendBytes_total, State.absorbed_total, List.length_singleton]
  · rw [hcount, State.readBytes_absorbed hw, State.readBytes_appendBytes hw, State.length_pendingBytes, hq, Nat.mul_zero,
      List.drop_zero]
  · rw [State.appendBytes_draws_eq, hq, State.absorbed_draws, Nat.add_zero]

/-- A byte that completes a block leaves, with the block compressed, what `UPDATE` of this byte leaves. -/
theorem State.sameKept_absorbed_foldLines (hw : s.buf.wf 64 = true) (hn : s.count = 63) {x : Vector Word 16} {l r : Line}
    {j : BitVec 7} (h : combineLines s.h l r = compress s.h ((s.absorbed b rest).buf.readBytes 0 64)) :
    (({ s.absorbed b rest with ret := .abs, seq := SeqCode.load } : State).beforeCombine x l r j).foldLines.SameKept
      (s.appendBytes [b]) := by
  have hlen : (s.pendingBytes [b]).length = 64 := by rw [State.length_pendingBytes, hn, List.length_singleton]
  have hblock : (s.absorbed b rest).buf.readBytes 0 64 = s.pendingBytes [b] := by
    rw [← State.readBytes_absorbed hw, hn]
  have hcount : (s.absorbed b rest).count = 0 := by rw [State.absorbed_count, hn]
  have hcount' : (s.appendBytes [b]).count = 0 := by rw [State.appendBytes_count, hlen]
  refine ⟨⟨?_, (s.appendBytes_total [b]).symm, ?_⟩, (s.appendBytes_phase [b]).symm, (s.appendBytes_err [b]).symm,
    (s.appendBytes_dout [b]).symm, (s.appendBytes_pending [b]).symm, (s.appendBytes_rstIn [b]).symm,
    (s.appendBytes_grain [b]).symm, ?_⟩
  · calc combineLines s.h l r
      _ = compressBlocks 1 (s.pendingBytes [b]) s.h := by
        rw [h, hblock, compressBlocks_one, List.take_of_length_le hlen.le]
      _ = (s.appendBytes [b]).h := by rw [State.appendBytes_h_pendingBytes, hlen]
  · rw [hcount']
    exact congrArg (Memory.readBytes (s.absorbed b rest).buf 0) hcount
  · rw [State.appendBytes_draws_eq, hn, List.length_singleton]
    rfl

end

/-- `v` is a state in which the sequencer has taken `data` off the payload of `s`, compressed the full blocks, and is
about to look at the rest (45_sequencer.md R186). -/
structure State.HasAbsorbed (s : State) (data rest : List Byte) (v : State) : Prop
    extends v.SameKept (s.appendBytes data) where
  payload : v.payload = rest
  opl : v.opl = s.opl
  canonical : v.buf.wf 64 = true

theorem State.afterPayload_of_more {s : State} (h : s.payload ≠ []) (here : BitVec 4) :
    s.afterPayload here = .next { s with seq := SeqCode.absorb } := by
  obtain ⟨b, rest, hp⟩ := List.exists_cons_of_ne_nil h
  rw [State.afterPayload, hp]

theorem State.afterPayload_of_endUpdate {s : State} (h : s.payload = []) (ho : s.opl = .update) (here : BitVec 4) :
    s.afterPayload here = .next s.finishUpdate := by
  simp only [State.afterPayload, h, ho]

/-- One step for a byte, and 82 more for the block it completes (R187). -/
theorem run_absorb_byte {s : State} {b : Byte} {rest : List Byte} (hr : s.rstIn = []) (hq : s.seq = SeqCode.absorb)
    (hw : s.buf.wf 64 = true) (hd : s.payload = b :: rest) :
    ∃ v here, Sys2Proof.core.run (updateSteps s.count 1) s = v.afterPayload here ∧ s.HasAbsorbed [b] rest v := by
  have hstep : step s = exec .absorb s := step_busy hr (by rw [hq]; decide) (hq ▸ decodeSeq_absorb)
  have hcanonical : (s.absorbed b rest).buf.wf 64 = true := Memory.wf_write hw s.count_lt b
  by_cases hn : s.count = 63
  · obtain ⟨x, l, r, j, hrun, hh⟩ :=
      run_compression_abs (s := { s.absorbed b rest with ret := .abs, seq := SeqCode.load }) hr rfl rfl
    have hsteps : updateSteps s.count 1 = 81 + 1 + 1 := by rw [hn]; rfl
    have hkept := State.sameKept_absorbed_foldLines (rest := rest) (x := x) (j := j) hw hn hh
    refine ⟨_, SeqCode.combine, ?_, hkept, rfl, rfl, hcanonical⟩
    rw [hsteps]
    exact (run_succ_of_next _ (hstep.trans (exec_absorb_full hd hn))).trans hrun
  · have hlt := s.count_lt
    have hsteps : updateSteps s.count 1 = 1 := by
      unfold updateSteps
      omega
    refine ⟨_, SeqCode.absorb, ?_, State.sameKept_absorbed (rest := rest) hw hn, rfl, rfl, hcanonical⟩
    rw [hsteps]
    exact (run_one s).trans (hstep.trans (exec_absorb_part hd hn))

/-- The steps of a payload are those of its first byte and those of the rest. -/
theorem updateSteps_succ (n0 k : Nat) :
    updateSteps n0 (k + 1) = updateSteps n0 1 + updateSteps ((n0 + 1) % 64) k := by
  unfold updateSteps
  omega

/-- R115: a payload is absorbed byte by byte, each full block compressed before the next byte. -/
theorem run_absorb_payload {s : State} {b : Byte} {rest : List Byte} (hr : s.rstIn = []) (hq : s.seq = SeqCode.absorb)
    (hw : s.buf.wf 64 = true) (hd : s.payload = b :: rest) :
    ∃ v here, Sys2Proof.core.run (updateSteps s.count (b :: rest).length) s = v.afterPayload here ∧
      s.HasAbsorbed (b :: rest) [] v := by
  induction rest generalizing s b with
  | nil => exact run_absorb_byte hr hq hw hd
  | cons c rest ih =>
    obtain ⟨v, here, hrun, hv⟩ := run_absorb_byte hr hq hw hd
    have hmore : v.payload ≠ [] := by simp [hv.payload]
    rw [State.afterPayload_of_more hmore] at hrun
    have hu : ({ v with seq := SeqCode.absorb } : State).SameKept (s.appendBytes [b]) := { hv.toSameKept with }
    have hcount : ({ v with seq := SeqCode.absorb } : State).count = (s.count + 1) % 64 :=
      hu.count.trans ((s.appendBytes_count [b]).trans (by simp))
    obtain ⟨v', here', hrun', hv'⟩ := ih (s := { v with seq := SeqCode.absorb })
      (hv.rstIn.trans ((s.appendBytes_rstIn [b]).trans hr)) rfl hv.canonical hv.payload
    refine ⟨v', here', ?_, ?_, hv'.payload, hv'.opl.trans hv.opl, hv'.canonical⟩
    · rw [hcount] at hrun'
      rw [List.length_cons, updateSteps_succ, run_add _ _ hrun, hrun']
    · have happend := hu.appendBytes hv.canonical (State.wf_appendBytes hw [b]) (c :: rest)
      exact hv'.toSameKept.trans (happend.trans (State.sameKept_appendBytes_append hw [b] (c :: rest)))

/-! ## `UPDATE` at both levels -/

/-- The engine that has accepted an admitted `UPDATE` with a payload. -/
def State.absorbing (s : State) (data : List Byte) : State :=
  { s with opl := .update, payload := data, response := none, seq := SeqCode.absorb }

theorem State.sameKept_absorbing (s : State) (data : List Byte) : (s.absorbing data).SameKept s where
  chain := rfl
  total := rfl
  buffered := rfl
  phase := rfl
  err := rfl
  dout := rfl
  pending := rfl
  rstIn := rfl
  grain := rfl
  draws := rfl

section
variable {s : State} {c : Command} (ho : Op.ofBits c.op = .update) (hp : s.phase = .active)
include ho hp

theorem State.accept_update_nothing (hd : c.payload = []) : s.accept c = s.finishUpdate := by
  simp only [State.accept, ho, hp, Phase.refusal, hd]

theorem State.accept_update {b : Byte} {rest : List Byte} (hd : c.payload = b :: rest) :
    s.accept c = s.absorbing (b :: rest) := by
  simp only [State.accept, ho, hp, Phase.refusal, hd, State.absorbing]

end

/-- An accepted `UPDATE` ends, after the steps of its payload, as the whole command does. -/
theorem run_accept_update {s : State} (hr : s.rstIn = []) (hp : s.phase = .active) (hw : s.buf.wf 64 = true)
    (data : List Byte) : Sys2Proof.core.run (updateSteps s.count data.length) (s.accept ⟨0b01#2, data⟩) =
      .next (s.appendBytes data).finishUpdate := by
  cases data with
  | nil =>
    have hsteps : updateSteps s.count 0 = 0 := by simp [updateSteps, Nat.div_eq_of_lt s.count_lt]
    rw [List.length_nil, hsteps, State.accept_update_nothing rfl hp rfl, State.appendBytes_nil_finishUpdate hw]
    exact run_zero _
  | cons b rest =>
    obtain ⟨v, here, hrun, hv⟩ := run_absorb_payload (s := s.absorbing (b :: rest)) hr rfl hw rfl
    have hkept := hv.toSameKept.trans ((s.sameKept_absorbing (b :: rest)).appendBytes hw hw (b :: rest))
    rw [State.afterPayload_of_endUpdate hv.payload hv.opl, hkept.finishUpdate_eq] at hrun
    rw [State.accept_update rfl hp rfl]
    exact hrun

/-- Settles O58: the bytes absorbed one by one leave what one append leaves, and the end of the command reads nothing
else. -/
theorem sequencerRunsUpdate : Obligations.SequencerRunsUpdate := by
  intro s data rest hq hg hr hp hw hpend
  rw [exec_update (s := { s with pending := rest }) hq hp, Nat.add_comm]
  exact (run_succ_of_next _ (step_accepts hq hg hr hpend)).trans
    (run_accept_update (s := { s with pending := rest }) hr hp hw data)

end Sys2Proof.Machine

namespace Sys2Proof.Machine

/-! # The compression (42_compress.md) -/

/-! ## The boolean functions -/

/-- Settles O25: one bit of each function is the same function of three bits, and on bits the choice and the function
have the same truth table. -/
theorem booleanFunctionsByBit : Obligations.BooleanFunctionsByBit := by
  intro x y z n hn
  simp only [boolFn, BitVec.getLsbD_xor, BitVec.getLsbD_and, BitVec.getLsbD_or, BitVec.getLsbD_not, hn, decide_true,
    Bool.true_and]
  generalize x.getLsbD n = xb, y.getLsbD n = yb, z.getLsbD n = zb
  revert xb yb zb
  decide

/-! ## `LOAD` -/

/-- Settles O22: `LOAD` assembles word `i` from `BUF[4i..4i+3]`, and a word is the sum of its bytes. -/
theorem loadAssemblesWords : Obligations.LoadAssemblesWords := by
  intro s
  have word : ∀ i : Fin 16, ((messageWords s.buf.read).get i).toNat =
      (s.buf.read (4 * i)).toNat + 2 ^ 8 * (s.buf.read (4 * i + 1)).toNat +
      2 ^ 16 * (s.buf.read (4 * i + 2)).toNat + 2 ^ 24 * (s.buf.read (4 * i + 3)).toNat := fun i => by
    rw [messageWords_get, messageWord, toNat_le32]
  exact ⟨_, exec_load s, word, rfl, rfl, rfl, rfl, rfl⟩

/-! ## `ROUND` -/

/-- One line's round with its two `rol`s as rotations (R138). -/
theorem roundLine_eq_rotateLeft (f : Nat) (k w : Word) {s : Nat} (hs : s ≤ 31) (l : Line) :
    roundLine f k w s l =
      ⟨l.e, (l.a + boolFn f l.b l.c l.d + w + k).rotateLeft s + l.e, l.b, l.c.rotateLeft 10, l.d⟩ := by
  have ten : (10 : Nat) ≤ 31 := by decide
  rw [roundLine, rol_eq_rotateLeft _ hs, rol_eq_rotateLeft _ ten]

/-- The ROM's rotation amounts have four bits (R66, R67), so `rol` is a rotation by them. -/
theorem toNat_le_31 (s : BitVec 4) : s.toNat ≤ 31 := by
  have := s.isLt
  omega

/-- Settles O24: each line takes its round, with the functions and tables of its side (R132); `J` and `SEQ` go on as
`J = 79` decides. -/
theorem roundStepsBothLines : Obligations.RoundStepsBothLines := by
  intro s hj
  have last : s.j = 79#7 ↔ s.j.toNat = 79 := BitVec.toNat_inj.symm
  refine ⟨_, exec_round hj, roundLine_eq_rotateLeft _ _ _ (toNat_le_31 _) _,
    roundLine_eq_rotateLeft _ _ _ (toNat_le_31 _) _, fun h => ?_, fun h => ?_, rfl⟩
  · have hne : s.j ≠ 79#7 := fun h79 => h.ne (last.mp h79)
    exact ⟨(congrArg BitVec.toNat (if_neg hne)).trans (toNat_next (by omega)), if_neg hne⟩
  · exact ⟨if_pos (last.mpr h), if_pos (last.mpr h)⟩

/-- Settles O28: the round of either line has no argument from the other. -/
theorem linesAreIndependent : Obligations.LinesAreIndependent := by
  intro s l r hj
  exact ⟨_, _, _, exec_round hj, exec_round (s := { s with right := r }) hj, exec_round (s := { s with left := l }) hj,
    rfl, rfl⟩

/-! ## `COMBINE` -/

/-- The combination by index (R141). -/
theorem combineLines_words (h : Chain) (l r : Line) {i : Nat} (hi : i < 5) : (combineLines h l r).words[i]? =
    some (h.words.getD ((i + 1) % 5) 0 + l.words.getD ((i + 2) % 5) 0 + r.words.getD ((i + 3) % 5) 0) := by
  interval_cases i <;> rfl

/-- A compression that ends an `UPDATE`, as a frame: `H`, what the end of the command writes, and what is transient. -/
theorem State.foldLines_finishUpdate_eq {s : State} (hp : s.payload = []) :
    s.foldLines.finishUpdate = { s.withTransientsOf s.foldLines.finishUpdate with
      h := s.foldLines.h, buf := s.foldLines.finishUpdate.buf, response := some ⟨.ok, none⟩, seq := SeqCode.idle } := by
  ext <;> simp [State.withTransientsOf, hp]

/-- Settles O29: every row of `COMBINE` folds the lines first; which row it is, `RET` says, and for `ABS` the payload and
`OPL`. -/
theorem combineFoldsBothLines : Obligations.CombineFoldsBothLines := by
  intro s hop
  have fold : ∀ i, i < 5 → s.foldLines.h.words[i]? = some (s.h.words.getD ((i + 1) % 5) 0 +
      s.left.words.getD ((i + 2) % 5) 0 + s.right.words.getD ((i + 3) % 5) 0) := fun i => combineLines_words _ _ _
  cases hret : s.ret with
  | last => exact ⟨_, exec_combine_last hret, fold, fun _ => by rw [← hret]; rfl, nofun, nofun, nofun, nofun⟩
  | spill => exact ⟨_, exec_combine_spill hret, fold, nofun, fun _ => by rw [← hret]; rfl, nofun, nofun, nofun⟩
  | abs =>
    have carries := hop hret
    rw [exec_combine_abs hret]
    rcases s.foldLines.afterPayload_cases SeqCode.combine with ⟨hp, e⟩ | ⟨hp, ho, e⟩ | ⟨hp, ho, e⟩ | ⟨-, ho, -⟩
    · exact ⟨_, e, fold, nofun, nofun, fun _ _ => by rw [← hret]; rfl, fun _ h => absurd h hp, fun _ h => absurd h hp⟩
    · refine ⟨_, e, fold, nofun, nofun, fun _ h => absurd hp h, fun _ _ h => ?_,
        fun _ _ _ => ⟨fun a => s.foldLines.read_finishUpdate, rfl, State.foldLines_finishUpdate_eq hp⟩⟩
      cases ho.symm.trans h
    · refine ⟨_, e, fold, nofun, nofun, fun _ h => absurd hp h, fun _ _ _ => by rw [← hret]; rfl, fun _ _ h => ?_⟩
      cases ho.symm.trans h
    · rcases ho with ho | ho <;> simp [show s.opl = _ from ho, Op.hasPayload] at carries

/-! ## The whole compression -/

/-- Settles O30: the state 81 steps after `LOAD` is `beforeCombine` of the two lines that complete `Compress`. -/
theorem compressionRunsEightyRounds : Obligations.CompressionRunsEightyRounds := by
  intro s hq hr
  obtain ⟨x, l, r, j, hrun, hcompress⟩ := run_compression hr hq
  exact ⟨_, hrun, rfl, hcompress, rfl⟩

/-- The block of zeros, the value R143(c) prints. -/
theorem compress_iv_zeros : compress Rom.iv (List.replicate 64 0x00#8) =
    ⟨0x187E9BC5#32, 0x248B9535#32, 0xD0D6DDCC#32, 0x987C4E30#32, 0xCB45101F#32⟩ := by decide +kernel

/-- The block 00 01 .. 3f, the value of 95_test_vectors.md section 2.4. -/
theorem compress_iv_counting : compress Rom.iv ((List.range 64).map (BitVec.ofNat 8)) =
    ⟨0xD6E08676#32, 0xA2E0EABA#32, 0xC4A552B7#32, 0x3B94ADCB#32, 0x54768374#32⟩ := by decide +kernel

/-- Settles O27, by computing both values. -/
theorem compressUnitVectors : Obligations.CompressUnitVectors :=
  ⟨compress_iv_zeros, compress_iv_counting⟩

end Sys2Proof.Machine

namespace Sys2Proof.Machine

/-! # `FINAL` and its padding (43_final.md) -/

/-! ## The bit length -/

/-- The bit length as a number (R161, R167). -/
theorem toNat_bitLength (total : BitVec 64) : (bitLength total).toNat = 8 * total.toNat % 2 ^ 64 := by
  rw [bitLength_eq, BitVec.toNat_ofNat]

/-- Settles O33: a shift by 3 moves the top three bits of the low half into the high half. -/
theorem bitLengthOnHalves : Obligations.BitLengthOnHalves := by
  intro s
  refine ⟨toNat_bitLength s.total, ?_, ?_⟩ <;> ext i hi <;> by_cases h : i < 3
  · simp [bitLength, State.totalLo, h]
  · simp [bitLength, State.totalLo, h]
    omega
  · have low : 29 + i < 32 := by omega
    have bit : 32 + i - 3 = 29 + i := by omega
    simp [bitLength, State.totalLo, State.totalHi, h, low, bit]
    omega
  · have high : ¬ 29 + i < 32 := by omega
    have bit : 32 + i - 3 = 32 + (i - 3) := by omega
    simp [bitLength, State.totalLo, State.totalHi, h, high, bit]
    omega

/-- Settles O34: `LATCH` answers one state, and its two words are those of `bitLength` and `padStart`. -/
theorem latchTakesLengthAndPointer : Obligations.LatchTakesLengthAndPointer :=
  fun s => ⟨_, exec_latch s, toNat_bitLength s.total, toNat_padStart s.total, rfl, rfl⟩

/-! ## One padding byte -/

/-- `PAD80` and `PADZ` are one operation with two bytes (R163, R164). -/
theorem exec_pad {i : Instr} {b : Byte} {s : State} (hi : (i = .pad80 ∧ b = 0x80#8) ∨ (i = .padz ∧ b = 0x00#8))
    (hp : s.p.toNat ≤ 63) : exec i s = .next (s.padByte b).afterPad := by
  rcases hi with ⟨rfl, rfl⟩ | ⟨rfl, rfl⟩
  · exact exec_pad80 hp
  · exact exec_padz hp

/-- The byte stands at `BUF[P]`, and `BUF` is as it was elsewhere. -/
theorem State.read_padByte {s : State} (hw : s.buf.wf 64 = true) (b : Byte) :
    (s.padByte b).buf.read s.p.toNat = b ∧ ∀ a, a ≠ s.p.toNat → (s.padByte b).buf.read a = s.buf.read a :=
  ⟨Memory.read_write_same (Memory.wf_rising hw) _ _, fun _ => Memory.read_write_ne _ _⟩

/-- The rows of R186 after a padding byte, with `P` as a number. -/
theorem State.afterPad_eq (s : State) : s.afterPad = { s with
    ret := if s.p.toNat = 64 then .spill else s.ret
    seq := if s.p.toNat = 56 then SeqCode.padlen else if s.p.toNat = 64 then SeqCode.load else SeqCode.padz } := by
  rcases s.afterPad_cases with ⟨h, e⟩ | ⟨h, e⟩ | ⟨h1, h2, e⟩
  · rw [e, h]; rfl
  · rw [e, h]; rfl
  · have n1 : s.p.toNat ≠ 56 := fun h => h1 (BitVec.eq_of_toNat_eq h)
    have n2 : s.p.toNat ≠ 64 := fun h => h2 (BitVec.eq_of_toNat_eq h)
    rw [e, if_neg n1, if_neg n2, if_neg n2]

/-- Settles O35: the padding byte is written, and `P` after it decides `SEQ` and `RET`. -/
theorem paddingWritesOneByte : Obligations.PaddingWritesOneByte := by
  intro i b s hi hp hw
  obtain ⟨same, other⟩ := State.read_padByte hw b
  exact ⟨_, (exec_pad hi hp).trans (congrArg _ (State.afterPad_eq _)), same, other, State.padByte_p_toNat hp b, rfl,
    rfl, rfl⟩

/-- Settles O36: byte `P - 56` of `LEN` is written, and `P = 63` decides `SEQ` and `RET`. -/
theorem padlenWritesOneLengthByte : Obligations.PadlenWritesOneLengthByte := by
  intro s hl hu hw
  obtain ⟨same, other⟩ := State.read_padByte hw (byteOf s.len (s.p.toNat - 56))
  exact ⟨_, exec_padlen hl hu, same.trans (byteOf_eq_extractLsb' _ _), other,
    State.padByte_p_toNat hu (byteOf s.len (s.p.toNat - 56)), rfl, rfl, rfl⟩

/-! ## The tail of `FINAL` -/

theorem getElem?_le64 (v : BitVec 64) {k : Nat} (hk : k < 8) : (le64 v)[k]? = some (byteOf v k) := by
  interval_cases k <;> rfl

/-- The eight bytes of a 64-bit word as slices (00_scope.md R11). -/
theorem le64_eq_map (v : BitVec 64) : le64 v = (List.range 8).map fun k => v.extractLsb' (8 * k) 8 := by
  simp only [le64, byteOf_eq_extractLsb']
  rfl

/-- The number of zero bytes of R160, for one block and for two. -/
theorem padTail_eq {buffered : List Byte} (hn : buffered.length < 64) (total : BitVec 64) :
    padTail buffered total = buffered ++ [0x80#8] ++
      zeros (if buffered.length ≤ 55 then 55 - buffered.length else 119 - buffered.length) ++
      le64 (BitVec.ofNat 64 (8 * total.toNat)) := by
  have hz : (119 - buffered.length) % 64 =
      if buffered.length ≤ 55 then 55 - buffered.length else 119 - buffered.length := by
    split <;> omega
  rw [padTail, hz, bitLength_eq]

/-- With room for the length field the tail is one block (R170). -/
theorem padTail_short {buffered : List Byte} (hn : buffered.length ≤ 55) (total : BitVec 64) :
    padTail buffered total = buffered ++ 0x80#8 :: zeros (55 - buffered.length) ++ le64 (bitLength total) := by
  rw [padTail, show (119 - buffered.length) % 64 = 55 - buffered.length by omega, List.append_assoc buffered]
  rfl

/-- Without it the tail is two blocks, the second with zeros in front of the length field (R170). -/
theorem padTail_long {buffered : List Byte} (h56 : 56 ≤ buffered.length) (hn : buffered.length < 64)
    (total : BitVec 64) : padTail buffered total =
      (buffered ++ 0x80#8 :: zeros (63 - buffered.length)) ++ (0x00#8 :: zeros 55 ++ le64 (bitLength total)) := by
  have hz : zeros (119 - buffered.length) = zeros (63 - buffered.length) ++ 0x00#8 :: zeros 55 := by
    rw [show 119 - buffered.length = (63 - buffered.length) + 56 by omega]
    exact List.replicate_add _ _ _
  rw [padTail, Nat.mod_eq_of_lt (by omega), hz]
  simp only [List.append_assoc, List.cons_append, List.nil_append]

theorem compressBlocks_two {front back : List Byte} (hf : front.length = 64) (hb : back.length = 64) (h : Chain) :
    compressBlocks 2 (front ++ back) h = compress (compress h front) back := by
  rw [compressBlocks_succ, compressBlocks_one, List.take_left' hf, List.drop_left' hf, List.take_of_length_le hb.le]

/-- Settles O32: an index falls into the buffered bytes, the marker, the zeros or the length field, whose places the
lengths of the parts give. -/
theorem paddingLayout : Obligations.PaddingLayout := by
  intro buffered total hn n tail last
  have htail : tail = buffered ++ ([0x80#8] ++ (zeros (if n ≤ 55 then 55 - n else 119 - n) ++
      le64 (BitVec.ofNat 64 (8 * total.toNat)))) := by
    simp only [tail, n, padTail_eq hn, List.append_assoc]
  have hz : n + 1 + (if n ≤ 55 then 55 - n else 119 - n) = last + 56 := by
    simp only [last]
    split <;> omega
  rw [htail]
  generalize (if n ≤ 55 then 55 - n else 119 - n) = z at hz
  refine ⟨?_, fun i hi => List.getElem?_append_left hi, ?_, fun i h1 h2 => ?_, fun k hk => ?_⟩
  · simp only [List.length_append, length_zeros, length_le64, List.length_singleton]
    omega
  · rw [List.getElem?_append_right le_rfl, Nat.sub_self]
    rfl
  · rw [List.getElem?_append_right h1.le, List.getElem?_append_right (by simp; omega),
      List.getElem?_append_left (by simp; omega), zeros, List.getElem?_replicate_of_lt (by simp; omega)]
  · rw [List.getElem?_append_right (by omega), List.getElem?_append_right (by simp; omega),
      List.getElem?_append_right (by simp; omega)]
    have hk' : last + 56 + k - buffered.length - [0x80#8].length - (zeros z).length = k := by simp; omega
    rw [hk', getElem?_le64 _ hk, byteOf_eq_extractLsb']

/-! ## The digest -/

/-- The tail as 43_final.md R160 writes it. -/
theorem padTail_eq_slices {buffered : List Byte} (hn : buffered.length < 64) (total : BitVec 64) :
    padTail buffered total = buffered ++ [0x80#8] ++
      List.replicate (if buffered.length ≤ 55 then 55 - buffered.length else 119 - buffered.length) 0x00#8 ++
      (List.range 8).map fun k => (BitVec.ofNat 64 (8 * total.toNat)).extractLsb' (8 * k) 8 := by
  rw [padTail_eq hn, le64_eq_map, zeros]

/-- The host reads the register while `PHASE = DONE` (R29). -/
theorem State.readDout_of_done {s : State} (hp : s.phase = .done) (i : Nat) : s.readDout i = s.dout.read i := by
  rw [State.readDout, hp]

/-- The end of `FINAL` shows the host the serialised chaining value, and answers with it (R53, R169). -/
theorem State.finishFinal_shows {s : State} {h : Chain} (hd : s.dout = Memory.ofBytes (serialise h)) :
    (∀ i k, i < 5 → k < 4 → s.finishFinal.dout.read (4 * i + k) = (h.words.getD i 0).extractLsb' (8 * k) 8 ∧
      s.finishFinal.readDout (4 * i + k) = (h.words.getD i 0).extractLsb' (8 * k) 8) ∧
    s.finishFinal.phase = .done ∧ s.finishFinal.response = some ⟨.ok, some s.finishFinal.digest⟩ := by
  have byte : ∀ i k, i < 5 → k < 4 →
      s.finishFinal.dout.read (4 * i + k) = (h.words.getD i 0).extractLsb' (8 * k) 8 := fun i k hi hk => by
    rw [State.finishFinal_dout, hd, read_serialise h hi hk, byteOf_eq_extractLsb']
  refine ⟨fun i k hi hk => ⟨byte i k hi hk, ?_⟩, s.finishFinal_phase, ?_⟩
  · rw [State.readDout_of_done s.finishFinal_phase, byte i k hi hk]
  · rw [State.finishFinal_response, State.finishFinal_digest]

/-- Settles O37: `OUT` writes `DOUT` from `H` and ends the command, which keeps `DOUT`. -/
theorem outSerialisesTheChain : Obligations.OutSerialisesTheChain := by
  intro s
  have hdout : ({ s with dout := Memory.ofBytes (serialise s.h) } : State).dout =
      Memory.ofBytes (serialise s.h) := by
    simp only
  obtain ⟨bytes, hphase, hresponse⟩ := State.finishFinal_shows hdout
  refine ⟨_, exec_out s, bytes, hphase, hresponse, rfl, ?_⟩
  ext <;> simp [State.withTransientsOf]

/-- The end of `FINAL`, as a frame: `DOUT` and the context, what the end of the command writes, and what
is transient. -/
theorem State.computeDigest_finishFinal_eq {s : State} (hq : s.seq = SeqCode.idle) :
    s.computeDigest.finishFinal = { s.withTransientsOf s.computeDigest.finishFinal with
      h := s.computeDigest.finishFinal.h, total := s.computeDigest.finishFinal.total,
      buf := s.computeDigest.finishFinal.buf, dout := s.computeDigest.finishFinal.dout, phase := .done,
      response := s.computeDigest.finishFinal.response, payload := [] } := by
  ext <;> simp [State.withTransientsOf, hq]

/-- Settles O31: the tail is that of R160, one block or two, and `DOUT` is the fold over its blocks from `H`, serialised;
in the other phases the admission check refuses. -/
theorem finalPadsAndSerialises : Obligations.FinalPadsAndSerialises := by
  refine ⟨fun s code hq hc => exec_final_refused hq hc, ?_⟩
  intro s hq hp n z len tail h
  have hlen : (s.buf.readBytes 0 s.count).length = n := Memory.length_readBytes _ _ _
  have hn : (s.buf.readBytes 0 s.count).length < 64 := hlen.trans_lt s.count_lt
  have htail : padTail (s.buf.readBytes 0 s.count) s.total = tail := by rw [padTail_eq_slices hn, hlen]
  have hlength : tail.length = if n ≤ 55 then 64 else 128 := by rw [← htail, length_padTail _ _ hn, hlen]
  have hblocks : tail.length / 64 = if n ≤ 55 then 1 else 2 := by
    rw [hlength]
    split <;> rfl
  have hdout : s.computeDigest.dout = Memory.ofBytes (serialise h) := by
    rw [State.computeDigest_dout, htail, hblocks, compressBlocks_eq_foldl_range]
  obtain ⟨bytes, hphase, hresponse⟩ := State.finishFinal_shows hdout
  exact ⟨hlength, _, exec_final hq hp, bytes, hphase, hresponse, State.computeDigest_finishFinal_eq hq⟩

/-- The padding of a message is the message's full blocks and the tail of what is left (R160, R172). -/
theorem State.Streaming.padMessage {s : State} {m : List Byte} (h : s.Streaming m) :
    padMessage m = m.take (64 * (m.length / 64)) ++ padTail (s.buf.readBytes 0 s.count) s.total := by
  have hbits : bitLength s.total = BitVec.ofNat 64 (8 * m.length) := by
    rw [bitLength_eq, h.counted]
    apply BitVec.eq_of_toNat_eq
    simp only [BitVec.toNat_ofNat]
    omega
  have hcount := h.count
  rw [padTail, Memory.length_readBytes, hbits, hcount, h.buffered]
  simp only [Machine.padMessage, ← List.append_assoc, List.take_append_drop]

/-- An engine that holds `m` computes the digest of `m`: `H` is the fold over the full blocks, and the fold over the
tail goes on from there (R172). -/
theorem State.Streaming.digest_computeDigest {s : State} {m : List Byte} (h : s.Streaming m) :
    s.computeDigest.digest = ripemd160 m := by
  have hfull : (m.take (64 * (m.length / 64))).length = 64 * (m.length / 64) :=
    List.length_take_of_le (Nat.mul_div_le _ _)
  have hq : (Machine.padMessage m).length / 64 =
      m.length / 64 + (padTail (s.buf.readBytes 0 s.count) s.total).length / 64 := by
    rw [h.padMessage, List.length_append, hfull]
    omega
  have hfront : compressBlocks (m.length / 64) (m.take (64 * (m.length / 64))) Rom.iv = s.h := by
    rw [h.chain, ← compressBlocks_append hfull.ge (m.drop (64 * (m.length / 64))), List.take_append_drop]
  rw [State.digest, State.computeDigest_dout, Memory.readBytes_ofBytes _ _ (by simp), List.take_of_length_le (by simp),
    ripemd160, hq, compressBlocks_add, h.padMessage, compressBlocks_append hfull.ge, hfront,
    List.drop_left' hfull]

/-- The end of `FINAL` or `HASH` in an engine that holds `m`. -/
theorem State.Streaming.finished {s : State} {m : List Byte} (h : s.Streaming m) :
    s.computeDigest.finishFinal.Finished (ripemd160 m) ∧
      s.computeDigest.finishFinal.response = some ⟨.ok, some (ripemd160 m)⟩ ∧
      s.computeDigest.finishFinal.err = s.err := by
  refine ⟨⟨rfl, rfl, ?_⟩, ?_, ?_⟩
  · rw [State.finishFinal_digest, h.digest_computeDigest]
  · rw [State.finishFinal_response, h.digest_computeDigest]
  · simp

/-- Settles O43: the command is admitted, and an engine that holds `m` delivers the digest of `m`. -/
theorem finalGivesTheDigest : Obligations.FinalGivesTheDigest :=
  fun _ _ h => ⟨_, exec_final h.idle h.active, h.finished⟩

/-- A new context holds the empty message (R236 `Fresh`). -/
theorem State.streaming_createContext {s : State} (hq : s.seq = SeqCode.idle) : s.createContext.Streaming [] where
  idle := hq
  active := rfl
  chain := rfl
  buffered := rfl
  counted := rfl

/-- Settles O39: the new context holds the empty message, and the payload is appended to it. -/
theorem hashGivesTheDigest : Obligations.HashGivesTheDigest := by
  intro s data hq hw
  have h := (State.streaming_createContext hq).appendBytes hw data
  obtain ⟨hfinished, hresponse, herr⟩ := h.finished
  exact ⟨_, exec_hash hq data, hfinished, hresponse, herr.trans (by simp)⟩

/-! ## The padding through the sequencer -/

/-- The step of an engine at the code of a micro-operation. -/
theorem step_at {s : State} {code : BitVec 4} {i : Instr} (hd : decodeSeq code = .ok i) (hr : s.rstIn = [])
    (hq : s.seq = code) (hc : code ≠ SeqCode.idle := by decide) : step s = exec i s := by
  subst hq
  exact step_busy hr hc hd

/-- The state with the sequencer at another place. -/
def State.withSeq (s : State) (code : BitVec 4) : State := { s with seq := code }

/-- The state at the beginning of a compression that returns where `RET` says. -/
def State.atLoad (s : State) (ret : Ret) : State := { s with ret := ret, seq := SeqCode.load }

/-- Bytes written one after the other from `BUF[P]` up, `P` counting them (R163 to R165). -/
def State.padBytes (s : State) (bs : List Byte) : State :=
  { s with buf := s.buf.writeBytes s.p.toNat bs, p := s.p + BitVec.ofNat 7 bs.length }

@[simp] theorem State.padBytes_nil (s : State) : s.padBytes [] = s := by
  simp [State.padBytes, Memory.writeBytes]

theorem State.padBytes_padByte {s : State} (hp : s.p.toNat < 127) (b : Byte) (bs : List Byte) :
    (s.padByte b).padBytes bs = s.padBytes (b :: bs) := by
  have hlen : s.p + 1#7 + BitVec.ofNat 7 bs.length = s.p + BitVec.ofNat 7 (b :: bs).length := by
    rw [List.length_cons, Nat.add_comm, BitVec.ofNat_add, BitVec.add_assoc]
  simp only [State.padBytes, State.padByte, toNat_next hp, hlen, Memory.writeBytes]

theorem State.toNat_padBytes_p {s : State} {bs : List Byte} (h : s.p.toNat + bs.length < 128) :
    (s.padBytes bs).p.toNat = s.p.toNat + bs.length := by
  simp only [State.padBytes, BitVec.toNat_add, BitVec.toNat_ofNat]
  omega

/-- The bytes below `P` are those that were there and the ones written. -/
theorem State.readBytes_padBytes {s : State} (hw : s.buf.wf 64 = true) (bs : List Byte) :
    (s.padBytes bs).buf.readBytes 0 (s.p.toNat + bs.length) = s.buf.readBytes 0 s.p.toNat ++ bs := by
  refine List.ext_getElem (by simp) fun i _ hi => ?_
  rw [Memory.getElem_readBytes, Nat.zero_add]
  by_cases hlt : i < s.p.toNat
  · rw [List.getElem_append_left (by simpa using hlt), Memory.getElem_readBytes, Nat.zero_add]
    exact Memory.read_writeBytes_outside _ (.inl hlt)
  · obtain ⟨d, rfl⟩ := Nat.exists_eq_add_of_le (Nat.le_of_not_lt hlt)
    simp only [List.length_append, Memory.length_readBytes, Nat.add_lt_add_iff_left] at hi
    rw [List.getElem_append_right (by simp)]
    simpa [State.padBytes] using Memory.read_writeBytes_inside (Memory.wf_rising hw) s.p.toNat bs d hi

theorem State.wf_padBytes {s : State} (hw : s.buf.wf 64 = true) {bs : List Byte} (h : s.p.toNat + bs.length ≤ 64) :
    (s.padBytes bs).buf.wf 64 = true :=
  Memory.wf_writeBytes hw h

/-- Where the padding goes on depends on `P` alone, not on where it stands. -/
theorem State.afterPad_withSeq (s : State) (code : BitVec 4) : (s.withSeq code).afterPad = s.afterPad := by
  rw [State.afterPad_eq, State.afterPad_eq]
  rfl

theorem State.afterPad_padz {s : State} (h56 : s.p.toNat ≠ 56) (h64 : s.p.toNat ≠ 64) :
    s.afterPad = s.withSeq SeqCode.padz := by
  rw [State.afterPad_eq, if_neg h56, if_neg h64, if_neg h64, State.withSeq]

theorem State.afterPad_padlen {s : State} (h : s.p.toNat = 56) : s.afterPad = s.withSeq SeqCode.padlen := by
  rw [State.afterPad_eq, h]
  rfl

theorem State.afterPad_spill {s : State} (h : s.p.toNat = 64) : s.afterPad = s.atLoad .spill := by
  rw [State.afterPad_eq, h]
  rfl

/-- A padding byte and `k` zero bytes, where only the last one can reach the length field or the end of `BUF`. -/
theorem run_pad {code : BitVec 4} {i : Instr} {b : Byte} {s : State} (hd : decodeSeq code = .ok i)
    (hr : s.rstIn = []) (hq : s.seq = code) (hi : (i = .pad80 ∧ b = 0x80#8) ∨ (i = .padz ∧ b = 0x00#8)) {k : Nat}
    (hp : s.p.toNat + k < 56 ∨ 56 ≤ s.p.toNat ∧ s.p.toNat + k < 64) (hc : code ≠ SeqCode.idle := by decide) :
    Sys2Proof.core.run (k + 1) s = .next (s.padBytes (b :: zeros k)).afterPad := by
  induction k generalizing code i b s with
  | zero =>
    have hone : s.padBytes (b :: zeros 0) = s.padByte b :=
      (State.padBytes_padByte (by omega) b (zeros 0)).symm.trans (State.padBytes_nil _)
    rw [hone]
    exact (run_one s).trans ((step_at hd hr hq hc).trans (exec_pad hi (by omega)))
  | succ k ih =>
    have hstep := (step_at hd hr hq hc).trans (exec_pad hi (by omega))
    have hnext : (s.padByte b).p.toNat = s.p.toNat + 1 := State.padByte_p_toNat (by omega) b
    rw [State.afterPad_padz (by omega) (by omega)] at hstep
    have hrest := ih (s := (s.padByte b).withSeq SeqCode.padz) decodeSeq_padz hr rfl (.inr ⟨rfl, rfl⟩)
      (show (s.padByte b).p.toNat + k < 56 ∨ 56 ≤ (s.padByte b).p.toNat ∧ (s.padByte b).p.toNat + k < 64 by omega)
      (by decide)
    have hall : (s.padByte b).padBytes (0x00#8 :: zeros k) = s.padBytes (b :: zeros (k + 1)) :=
      State.padBytes_padByte (by omega) b _
    rw [← hall, ← State.afterPad_withSeq _ SeqCode.padz]
    exact (run_succ_of_next _ hstep).trans hrest

theorem drop_le64 (v : BitVec 64) {k : Nat} (hk : k < 8) :
    (le64 v).drop k = byteOf v k :: (le64 v).drop (k + 1) := by
  interval_cases k <;> rfl

/-- Byte `P - 56` of `LEN` written at `BUF[P]` (R165). -/
def State.padLengthByte (s : State) : State := s.padByte (byteOf s.len (s.p.toNat - 56))

theorem exec_padlen_on {s : State} (hl : 56 ≤ s.p.toNat) (hu : s.p.toNat < 63) :
    exec .padlen s = .next (s.padLengthByte.withSeq SeqCode.padlen) := by
  rw [exec_padlen hl hu.le, if_neg hu.ne, if_neg hu.ne]
  rfl

theorem exec_padlen_last {s : State} (hp : s.p.toNat = 63) :
    exec .padlen s = .next (s.padLengthByte.atLoad .last) := by
  rw [exec_padlen (by omega) hp.le, if_pos hp, if_pos hp]
  rfl

/-- The bytes of the length field from byte `P - 56` on are that byte and those from the next on. -/
theorem State.padBytes_drop_le64 {s : State} (hl : 56 ≤ s.p.toNat) (hu : s.p.toNat ≤ 63) :
    s.padBytes ((le64 s.len).drop (s.p.toNat - 56)) =
      s.padLengthByte.padBytes ((le64 s.len).drop (s.p.toNat + 1 - 56)) := by
  rw [drop_le64 s.len (by omega), State.padLengthByte, State.padBytes_padByte (by omega), Nat.sub_add_comm hl]

/-- The length field from byte `P - 56` on, and then the last compression (R165). -/
theorem run_padlen {s : State} (hr : s.rstIn = []) (hq : s.seq = SeqCode.padlen) (hl : 56 ≤ s.p.toNat) {k : Nat}
    (hp : s.p.toNat + k = 63) : Sys2Proof.core.run (k + 1) s =
      .next ((s.padBytes ((le64 s.len).drop (s.p.toNat - 56))).atLoad .last) := by
  induction k generalizing s with
  | zero =>
    have h63 : s.p.toNat = 63 := hp
    have hnone : (le64 s.len).drop (s.p.toNat + 1 - 56) = [] := by rw [h63]; rfl
    rw [State.padBytes_drop_le64 hl h63.le, hnone, State.padBytes_nil]
    exact (run_one s).trans ((step_at decodeSeq_padlen hr hq).trans (exec_padlen_last h63))
  | succ k ih =>
    have hstep := (step_at decodeSeq_padlen hr hq).trans (exec_padlen_on hl (by omega))
    have hnext : s.padLengthByte.p.toNat = s.p.toNat + 1 := State.padByte_p_toNat (by omega) _
    have hrest := ih (s := s.padLengthByte.withSeq SeqCode.padlen) hr rfl
      (show 56 ≤ s.padLengthByte.p.toNat by omega) (show s.padLengthByte.p.toNat + k = 63 by omega)
    rw [State.padBytes_drop_le64 hl (by omega), ← hnext]
    exact (run_succ_of_next _ hstep).trans hrest

/-- The sequencer at `PAD80`, with what `LATCH` takes from `TOTAL` (R161). -/
def State.atPad80 (s : State) : State :=
  { s with len := bitLength s.total, p := padStart s.total, seq := SeqCode.pad80 }

/-! ## The blocks of `FINAL` through the sequencer -/

/-- The end of `FINAL` with the chaining value `h` after `q` compressions (R168, R169). -/
def State.delivered (s : State) (h : Chain) (q : Nat) : State :=
  ({ s with dout := Memory.ofBytes (serialise h), draws := s.draws + q } : State).finishFinal

/-- What the end of `FINAL` leaves depends on the delivered value and on what no rule of the command writes. -/
theorem State.delivered_congr {s u : State} (he : s.err = u.err) (hp : s.pending = u.pending) (hr : s.rstIn = u.rstIn)
    (hg : s.grain = u.grain) (h : Chain) {q q' : Nat} (hd : s.draws + q = u.draws + q') :
    s.delivered h q = u.delivered h q' := by
  simp only [State.delivered, State.finishFinal, State.respond, State.retire, State.anyTransients, State.anyContext,
    State.digest, he, hp, hr, hg, hd]

theorem State.computeDigest_finishFinal_eq_delivered (s : State) :
    s.computeDigest.finishFinal = s.delivered
      (compressBlocks ((padTail (s.buf.readBytes 0 s.count) s.total).length / 64)
        (padTail (s.buf.readBytes 0 s.count) s.total) s.h)
      ((padTail (s.buf.readBytes 0 s.count) s.total).length / 64) := by
  simp only [State.delivered, State.computeDigest]

/-- The sequencer back at the padding after the compression of the first of two blocks (R186). -/
def State.spilled (s : State) (x : Vector Word 16) (l r : Line) (j : BitVec 7) : State :=
  { (s.beforeCombine x l r j).foldLines with p := 0#7, seq := SeqCode.padz }

/-- The sequencer at `OUT` after the compression of the last block (R186). -/
def State.folded (s : State) (x : Vector Word 16) (l r : Line) (j : BitVec 7) : State :=
  (s.beforeCombine x l r j).foldLines.withSeq SeqCode.out

/-! The padding and the compressions write nothing the end of `FINAL` leaves, but that each compression draws once. -/

section
variable (s : State) (h : Chain) (q : Nat)

@[simp] theorem State.delivered_padBytes (bs : List Byte) : (s.padBytes bs).delivered h q = s.delivered h q :=
  State.delivered_congr rfl rfl rfl rfl h rfl

@[simp] theorem State.delivered_atLoad (ret : Ret) : (s.atLoad ret).delivered h q = s.delivered h q :=
  State.delivered_congr rfl rfl rfl rfl h rfl

@[simp] theorem State.delivered_atPad80 : s.atPad80.delivered h q = s.delivered h q :=
  State.delivered_congr rfl rfl rfl rfl h rfl

@[simp] theorem State.delivered_folded (x : Vector Word 16) (l r : Line) (j : BitVec 7) :
    (s.folded x l r j).delivered h q = s.delivered h (1 + q) :=
  State.delivered_congr (s := s.folded x l r j) (u := s) rfl rfl rfl rfl h (Nat.add_assoc s.draws 1 q)

@[simp] theorem State.delivered_spilled (x : Vector Word 16) (l r : Line) (j : BitVec 7) :
    (s.spilled x l r j).delivered h q = s.delivered h (1 + q) :=
  State.delivered_congr (s := s.spilled x l r j) (u := s) rfl rfl rfl rfl h (Nat.add_assoc s.draws 1 q)

end

/-- The compression of the first of two blocks: 82 steps. -/
theorem run_compression_spill {s : State} (hr : s.rstIn = []) :
    ∃ x l r j, Sys2Proof.core.run (81 + 1) (s.atLoad .spill) = .next ((s.atLoad .spill).spilled x l r j) ∧
      combineLines s.h l r = compress s.h (s.buf.readBytes 0 64) := by
  obtain ⟨x, l, r, j, hrun, hh⟩ := run_compression (s := s.atLoad .spill) hr rfl
  have hcombine : step ((s.atLoad .spill).beforeCombine x l r j) = .next ((s.atLoad .spill).spilled x l r j) :=
    (step_at (s := (s.atLoad .spill).beforeCombine x l r j) decodeSeq_combine hr rfl).trans (exec_combine_spill rfl)
  exact ⟨x, l, r, j, (run_add 81 1 hrun).trans ((run_one _).trans hcombine), hh⟩

/-- The compression of the last block, and `OUT`: 83 steps. -/
theorem run_compression_last {s : State} (hr : s.rstIn = []) :
    Sys2Proof.core.run (81 + 2) (s.atLoad .last) = .next (s.delivered (compress s.h (s.buf.readBytes 0 64)) 1) := by
  obtain ⟨x, l, r, j, hrun, hh⟩ := run_compression (s := s.atLoad .last) hr rfl
  have hcombine : step ((s.atLoad .last).beforeCombine x l r j) = .next ((s.atLoad .last).folded x l r j) :=
    (step_at (s := (s.atLoad .last).beforeCombine x l r j) decodeSeq_combine hr rfl).trans (exec_combine_last rfl)
  have hout : step ((s.atLoad .last).folded x l r j) =
      .next (((s.atLoad .last).folded x l r j).delivered (combineLines s.h l r) 0) :=
    (step_at (s := (s.atLoad .last).folded x l r j) decodeSeq_out hr rfl).trans (exec_out _)
  rw [State.delivered_folded, State.delivered_atLoad, show combineLines s.h l r = _ from hh] at hout
  exact (run_add 81 2 hrun).trans ((run_succ_of_next 1 hcombine).trans ((run_one _).trans hout))

/-- `v` is a state in which the sequencer has compressed `block`, the first of two, and pads the second from its start
(R186): the length is still latched, and the end of the command has one draw less to make. -/
structure State.HasSpilled (s : State) (block : List Byte) (v : State) : Prop where
  seq : v.seq = SeqCode.padz
  rstIn : v.rstIn = []
  canonical : v.buf.wf 64 = true
  chain : v.h = compress s.h block
  pointer : v.p = 0#7
  len : v.len = s.len
  delivered : ∀ h q, v.delivered h q = s.delivered h (1 + q)

section
variable {code : BitVec 4} {i : Instr} {b : Byte} {s : State} (hd : decodeSeq code = .ok i) (hr : s.rstIn = [])
  (hq : s.seq = code) (hc : code ≠ SeqCode.idle) (hi : (i = .pad80 ∧ b = 0x80#8) ∨ (i = .padz ∧ b = 0x00#8))
  (hw : s.buf.wf 64 = true) {k : Nat}
include hd hr hq hc hi hw

/-- A block with room for the length field: padded from `P` on, compressed, and delivered. -/
theorem run_last_block (hp : s.p.toNat + k = 55) : Sys2Proof.core.run (k + 1 + (7 + 1 + (81 + 2))) s =
    .next (s.delivered (compress s.h (s.buf.readBytes 0 s.p.toNat ++ b :: zeros k ++ le64 s.len)) 1) := by
  have hlen : s.p.toNat + (b :: zeros k).length = 56 := by rw [List.length_cons, length_zeros]; omega
  have h56 : (s.padBytes (b :: zeros k)).p.toNat = 56 := (State.toNat_padBytes_p (by omega)).trans hlen
  have hpad := run_pad hd hr hq hi (k := k) (.inl (by omega)) hc
  rw [State.afterPad_padlen h56] at hpad
  have hdrop : (le64 s.len).drop ((s.padBytes (b :: zeros k)).p.toNat - 56) = le64 s.len := by rw [h56]; rfl
  have hfield : Sys2Proof.core.run (7 + 1) ((s.padBytes (b :: zeros k)).withSeq SeqCode.padlen) =
      .next (((s.padBytes (b :: zeros k)).padBytes (le64 s.len)).atLoad .last) := by
    rw [← hdrop]
    exact run_padlen (s := (s.padBytes (b :: zeros k)).withSeq SeqCode.padlen) hr rfl h56.ge (congrArg (· + 7) h56)
  have hlast := run_compression_last (s := (s.padBytes (b :: zeros k)).padBytes (le64 s.len)) hr
  have hblock : ((s.padBytes (b :: zeros k)).padBytes (le64 s.len)).buf.readBytes 0 64 =
      s.buf.readBytes 0 s.p.toNat ++ b :: zeros k ++ le64 s.len := by
    have hfront := State.readBytes_padBytes hw (b :: zeros k)
    have hback := State.readBytes_padBytes (State.wf_padBytes hw (hlen.trans_le (by decide))) (le64 s.len)
    rw [hlen] at hfront
    rwa [h56, hfront] at hback
  rw [hblock, State.delivered_padBytes, State.delivered_padBytes] at hlast
  exact (run_add _ _ hpad).trans ((run_add _ _ hfield).trans hlast)

/-- A block without room for it: padded from `P` to its end, and compressed. -/
theorem run_spill_block (h56 : 56 ≤ s.p.toNat) (hp : s.p.toNat + k = 63) :
    ∃ v, Sys2Proof.core.run (k + 1 + (81 + 1)) s = .next v ∧
      s.HasSpilled (s.buf.readBytes 0 s.p.toNat ++ b :: zeros k) v := by
  have hlen : s.p.toNat + (b :: zeros k).length = 64 := by rw [List.length_cons, length_zeros]; omega
  have h64 : (s.padBytes (b :: zeros k)).p.toNat = 64 := (State.toNat_padBytes_p (by omega)).trans hlen
  have hpad := run_pad hd hr hq hi (k := k) (.inr ⟨h56, by omega⟩) hc
  rw [State.afterPad_spill h64] at hpad
  obtain ⟨x, l, r, j, hrun, hh⟩ := run_compression_spill (s := s.padBytes (b :: zeros k)) hr
  have hblock := State.readBytes_padBytes hw (b :: zeros k)
  rw [hlen] at hblock
  rw [hblock] at hh
  exact ⟨_, (run_add _ _ hpad).trans hrun, rfl, hr, State.wf_padBytes hw hlen.le, hh, rfl, rfl, fun h q => by simp⟩

end

/-! ## `FINAL` at both levels -/

theorem finalSteps_short {n : Nat} (h : n ≤ 55) : finalSteps n = (55 - n) + 1 + (7 + 1 + (81 + 2)) + 1 := by
  rw [finalSteps, if_pos h]
  omega

theorem finalSteps_long {n : Nat} (h56 : 56 ≤ n) (h : n < 64) :
    finalSteps n = (63 - n) + 1 + (81 + 1) + (55 + 1 + (7 + 1 + (81 + 2))) + 1 := by
  rw [finalSteps, if_neg (by omega)]
  omega

/-- `FINAL` from `PAD80` on, the tail one block. -/
theorem run_pad80_short {s : State} (hr : s.rstIn = []) (hw : s.buf.wf 64 = true) (h55 : s.count ≤ 55) :
    Sys2Proof.core.run ((55 - s.count) + 1 + (7 + 1 + (81 + 2))) s.atPad80 =
      .next (s.delivered (compress s.h (padTail (s.buf.readBytes 0 s.count) s.total)) 1) := by
  have hp : s.atPad80.p.toNat = s.count := toNat_padStart s.total
  have hlen : (s.buf.readBytes 0 s.count).length = s.count := Memory.length_readBytes _ _ _
  have hrun := run_last_block (s := s.atPad80) decodeSeq_pad80 hr rfl (by decide) (.inl ⟨rfl, rfl⟩) hw
    (k := 55 - s.count) (by omega)
  rw [hp, State.delivered_atPad80] at hrun
  rw [padTail_short (hlen.trans_le h55), hlen]
  exact hrun

/-- `FINAL` from `PAD80` on, the tail two blocks. -/
theorem run_pad80_long {s : State} (hr : s.rstIn = []) (hw : s.buf.wf 64 = true) (h56 : 56 ≤ s.count) :
    Sys2Proof.core.run ((63 - s.count) + 1 + (81 + 1) + (55 + 1 + (7 + 1 + (81 + 2)))) s.atPad80 =
      .next (s.delivered (compressBlocks 2 (padTail (s.buf.readBytes 0 s.count) s.total) s.h) 2) := by
  have hn := s.count_lt
  have hp : s.atPad80.p.toNat = s.count := toNat_padStart s.total
  have hlen : (s.buf.readBytes 0 s.count).length = s.count := Memory.length_readBytes _ _ _
  obtain ⟨v, hspill, hv⟩ := run_spill_block (s := s.atPad80) decodeSeq_pad80 hr rfl (by decide)
    (.inl ⟨rfl, rfl⟩) hw (k := 63 - s.count) (hp.symm ▸ h56) (by omega)
  have hlast := run_last_block decodeSeq_padz hv.rstIn hv.seq (by decide) (.inr ⟨rfl, rfl⟩) hv.canonical (k := 55)
    (by rw [hv.pointer]; rfl)
  have hvalue : compressBlocks 2 (padTail (s.buf.readBytes 0 s.count) s.total) s.h =
      compress v.h (v.buf.readBytes 0 v.p.toNat ++ 0x00#8 :: zeros 55 ++ le64 v.len) := by
    rw [padTail_long (h56.trans_eq hlen.symm) (hlen.trans_lt hn), hlen,
      compressBlocks_two (by simp [hlen]; omega) (by simp), hv.chain, hv.pointer, hv.len, hp]
    rfl
  rw [hv.delivered, State.delivered_atPad80, ← hvalue] at hlast
  exact (run_add _ _ hspill).trans hlast

/-- `FINAL` from `LATCH` on ends as the effects of `FINAL` do (R166, R187). -/
theorem run_latch {s : State} (hr : s.rstIn = []) (hq : s.seq = SeqCode.latch) (hw : s.buf.wf 64 = true) :
    Sys2Proof.core.run (finalSteps s.count) s = .next s.computeDigest.finishFinal := by
  have hn := s.count_lt
  have hlength : (padTail (s.buf.readBytes 0 s.count) s.total).length = if s.count ≤ 55 then 64 else 128 := by
    rw [length_padTail _ _ (by simp), Memory.length_readBytes]
  have hstep : step s = .next s.atPad80 := (step_at decodeSeq_latch hr hq).trans (exec_latch s)
  rw [State.computeDigest_finishFinal_eq_delivered, hlength]
  by_cases h55 : s.count ≤ 55
  · rw [if_pos h55] at hlength
    rw [if_pos h55, finalSteps_short h55, compressBlocks_one, List.take_of_length_le hlength.le]
    exact (run_succ_of_next _ hstep).trans (run_pad80_short hr hw h55)
  · rw [if_neg h55, finalSteps_long (by omega) hn]
    exact (run_succ_of_next _ hstep).trans (run_pad80_long hr hw (by omega))

/-- The engine that has accepted an admitted `FINAL`. -/
def State.latching (s : State) : State :=
  { s with opl := .final, payload := [], response := none, seq := SeqCode.latch }

theorem State.accept_final {s : State} (hp : s.phase = .active) : s.accept ⟨0b10#2, []⟩ = s.latching := by
  have ho : Op.ofBits 0b10#2 = .final := rfl
  simp only [State.accept, ho, hp, Phase.refusal, State.latching]

/-- What `FINAL` leaves does not depend on what acceptance wrote. -/
theorem State.computeDigest_latching (s : State) :
    s.latching.computeDigest.finishFinal = s.computeDigest.finishFinal := by
  rw [State.computeDigest_finishFinal_eq_delivered, State.computeDigest_finishFinal_eq_delivered]
  exact State.delivered_congr rfl rfl rfl rfl _ rfl

/-- Settles O59: acceptance carries the command to `LATCH`, and the blocks of the tail are padded and compressed from
there. -/
theorem sequencerRunsFinal : Obligations.SequencerRunsFinal := by
  intro s rest hq hg hr hp hw hpend
  have haccept := step_accepts hq hg hr hpend
  rw [State.accept_final (s := { s with pending := rest }) hp] at haccept
  have hrun := run_latch (s := ({ s with pending := rest } : State).latching) hr rfl hw
  rw [State.computeDigest_latching] at hrun
  rw [exec_final (s := { s with pending := rest }) hq hp, Nat.add_comm]
  exact (run_succ_of_next _ haccept).trans hrun

end Sys2Proof.Machine

namespace Sys2Proof.Machine

/-! # `HASH` (44_hash.md) -/

/-! ## `HASH` and the three commands -/

/-- What `FINAL` delivers depends on the context registers alone. -/
theorem State.SameData.computeDigest_dout {s u : State} (h : s.SameData u) :
    s.computeDigest.dout = u.computeDigest.dout := by
  rw [State.computeDigest_dout, State.computeDigest_dout, h.buffered, h.total, h.chain]

/-- The end of `INIT` writes nothing the effects of `UPDATE` read, and the end of `UPDATE` keeps the context
registers. -/
theorem State.sameData_finishInit_appendBytes_finishUpdate (s : State) (data : List Byte) :
    (s.finishInit.appendBytes data).finishUpdate.SameData (s.appendBytes data) :=
  (State.sameData_finishUpdate _).trans ⟨rfl, rfl, rfl⟩

/-- Settles O38: the context registers before `FINAL` are those the one-step command pads and compresses. -/
theorem hashIsInitUpdateFinal : Obligations.HashIsInitUpdateFinal := by
  intro s data hq
  have hdout := (s.createContext.sameData_finishInit_appendBytes_finishUpdate data).computeDigest_dout
  refine ⟨_, _, _, _, exec_init hq, exec_update rfl rfl data, exec_final rfl rfl, exec_hash hq data, ?_, rfl, rfl,
    ?_, ?_⟩
  · rw [State.finishFinal_dout, State.finishFinal_dout, hdout]
  · rw [State.finishFinal_response, State.finishFinal_response, State.digest, State.digest, hdout]
  · ext <;> simp [State.withTransientsOf, hq]

/-! ## The empty message -/

/-- The digest R182 prints. -/
theorem ripemd160_nil : ripemd160 [] =
    [0x9c#8, 0x11#8, 0x85#8, 0xa5#8, 0xc5#8, 0xe9#8, 0xfc#8, 0x54#8, 0x61#8, 0x28#8,
     0x08#8, 0x97#8, 0x7e#8, 0xe8#8, 0xf5#8, 0x48#8, 0xb2#8, 0x25#8, 0x8d#8, 0x31#8] := by decide +kernel

/-- A new context holds no byte, so an append of nothing to it writes none and reads none, whatever `BUF` holds. -/
theorem State.streaming_createContext_appendBytes_nil {s : State} (hq : s.seq = SeqCode.idle) :
    (s.createContext.appendBytes []).Streaming [] where
  idle := hq
  active := rfl
  chain := by
    rw [State.appendBytes_h_pendingBytes, State.blocks_nil, compressBlocks_zero, State.createContext_h]
    rfl
  buffered := rfl
  counted := rfl

/-- Settles O40: an engine that holds the empty message delivers its digest. -/
theorem emptyMessageDigest : Obligations.EmptyMessageDigest := by
  intro s hq
  obtain ⟨-, hresponse, -⟩ := (State.streaming_createContext_appendBytes_nil hq).finished
  exact ⟨_, exec_hash hq [], by rw [hresponse, ripemd160_nil]⟩

/-! ## `HASH` at both levels -/

theorem State.SameKept.symm {s u : State} (h : s.SameKept u) : u.SameKept s where
  chain := h.chain.symm
  total := h.total.symm
  buffered := h.buffered.symm
  phase := h.phase.symm
  err := h.err.symm
  dout := h.dout.symm
  pending := h.pending.symm
  rstIn := h.rstIn.symm
  grain := h.grain.symm
  draws := h.draws.symm

/-- What `FINAL` leaves depends on nothing the end of `UPDATE` leaves open. -/
theorem State.SameKept.computeDigest_finishFinal_eq {s u : State} (h : s.SameKept u) :
    s.computeDigest.finishFinal = u.computeDigest.finishFinal := by
  rw [State.computeDigest_finishFinal_eq_delivered, State.computeDigest_finishFinal_eq_delivered, h.buffered, h.total,
    h.chain]
  exact State.delivered_congr h.err h.pending h.rstIn h.grain _ (congrArg (· + _) h.draws)

/-- `FINAL` from `LATCH` on, in an engine that holds what `u` holds. -/
theorem run_latch_of_sameKept {s u : State} (hr : s.rstIn = []) (hq : s.seq = SeqCode.latch)
    (hw : s.buf.wf 64 = true) (h : s.SameKept u) :
    Sys2Proof.core.run (finalSteps u.count) s = .next u.computeDigest.finishFinal := by
  rw [← h.count, ← h.computeDigest_finishFinal_eq]
  exact run_latch hr hq hw

/-- The engine that has accepted `HASH` and has not yet taken a byte of the payload, at a place of the sequencer. -/
def State.hashing (s : State) (data : List Byte) (code : BitVec 4) : State :=
  { s with opl := .hash, payload := data, response := none, seq := code }

theorem State.sameKept_hashing (s : State) (data : List Byte) (code : BitVec 4) :
    (s.hashing data code).SameKept s where
  chain := rfl
  total := rfl
  buffered := rfl
  phase := rfl
  err := rfl
  dout := rfl
  pending := rfl
  rstIn := rfl
  grain := rfl
  draws := rfl

theorem State.accept_hash (s : State) (data : List Byte) :
    s.accept ⟨0b11#2, data⟩ = s.hashing data SeqCode.uinit := rfl

/-- `UINIT` of `HASH` creates the context and goes to the payload, or to `LATCH` where there is none (R101, R186). -/
theorem exec_uinit_hashing (s : State) (data : List Byte) (code : BitVec 4) :
    exec .uinit (s.hashing data code) =
      .next (s.createContext.hashing data (if data = [] then SeqCode.latch else SeqCode.absorb)) :=
  exec_uinit_hash rfl

theorem State.afterPayload_of_endHash {s : State} (h : s.payload = []) (ho : s.opl = .hash) (here : BitVec 4) :
    s.afterPayload here = .next (s.withSeq SeqCode.latch) := by
  simp only [State.afterPayload, h, ho, State.withSeq]

/-- The payload of `HASH` is absorbed as that of `UPDATE` is, and the sequencer goes to `LATCH` (R115, R186). -/
theorem run_hash_payload {s : State} (hr : s.rstIn = []) (hw : s.buf.wf 64 = true) (data : List Byte) :
    ∃ v, Sys2Proof.core.run (updateSteps s.count data.length)
        (s.hashing data (if data = [] then SeqCode.latch else SeqCode.absorb)) = .next v ∧
      v.seq = SeqCode.latch ∧ v.buf.wf 64 = true ∧ v.SameKept (s.appendBytes data) := by
  cases data with
  | nil =>
    have hsteps : updateSteps s.count 0 = 0 := by simp [updateSteps, Nat.div_eq_of_lt s.count_lt]
    have hkept := (s.sameKept_hashing [] SeqCode.latch).trans (State.sameKept_appendBytes_nil hw).symm
    refine ⟨s.hashing [] SeqCode.latch, ?_, rfl, hw, hkept⟩
    rw [List.length_nil, hsteps, if_pos rfl]
    exact run_zero _
  | cons b rest =>
    obtain ⟨v, here, hrun, hv⟩ :=
      run_absorb_payload (s := s.hashing (b :: rest) SeqCode.absorb) hr rfl hw rfl
    have hkept := hv.toSameKept.trans ((s.sameKept_hashing (b :: rest) SeqCode.absorb).appendBytes hw hw (b :: rest))
    rw [State.afterPayload_of_endHash hv.payload hv.opl] at hrun
    exact ⟨v.withSeq SeqCode.latch, hrun, rfl, hv.canonical, { hkept with }⟩

/-- `HASH` from the end of `UINIT` on: the steps of its payload and those of the padding and the output. -/
theorem run_hashing {s : State} (hr : s.rstIn = []) (hw : s.buf.wf 64 = true) (data : List Byte) :
    Sys2Proof.core.run (updateSteps s.count data.length + finalSteps (s.appendBytes data).count)
        (s.hashing data (if data = [] then SeqCode.latch else SeqCode.absorb)) =
      .next (s.appendBytes data).computeDigest.finishFinal := by
  obtain ⟨v, hrun, hseq, hcanonical, hkept⟩ := run_hash_payload hr hw data
  have hreset : v.rstIn = [] := hkept.rstIn.trans ((s.appendBytes_rstIn data).trans hr)
  exact (run_add _ _ hrun).trans (run_latch_of_sameKept hreset hseq hcanonical hkept)

/-- Settles O60: after acceptance and `UINIT`, the payload is absorbed into the new context and its digest delivered. -/
theorem sequencerRunsHash : Obligations.SequencerRunsHash := by
  intro s data rest hq hg hr hw hpend
  have haccept := step_accepts hq hg hr hpend
  rw [State.accept_hash] at haccept
  have huinit := (step_at (s := ({ s with pending := rest } : State).hashing data SeqCode.uinit)
    decodeSeq_uinit hr rfl).trans (exec_uinit_hashing _ data _)
  have hrun := run_hashing (s := ({ s with pending := rest } : State).createContext) hr hw data
  rw [State.appendBytes_count, State.length_pendingBytes, State.createContext_count, Nat.zero_add] at hrun
  have hsteps : 1 + hashSteps data.length = updateSteps 0 data.length + finalSteps (data.length % 64) + 1 + 1 := by
    rw [hashSteps]
    omega
  rw [exec_hash (s := { s with pending := rest }) hq data, hsteps]
  exact (run_succ_of_next _ haccept).trans ((run_succ_of_next _ huinit).trans hrun)

end Sys2Proof.Machine

namespace Sys2Proof.Machine

/-! # The rows of the sequencer (45_sequencer.md R186) -/

/-! ## The rows of `IDLE` -/

theorem State.accept_hash_code {c : Command} (s : State) (ho : c.op = 0b11#2) :
    s.accept c = s.hashing c.payload SeqCode.uinit := by
  obtain ⟨op, data⟩ := c
  subst ho
  exact s.accept_hash data

/-- `FINAL` has no payload, so what stands at the payload port beside it is not read (30_encoding.md R84). -/
theorem State.accept_final_code {s : State} {c : Command} (ho : c.op = 0b10#2) (hp : s.phase = .active) :
    s.accept c = s.latching := by
  obtain ⟨op, data⟩ := c
  subst ho
  exact State.accept_final hp

/-- Settles O48: `IDLE` answers what `accept` does with the command taken from the port, a row of R186 for each code. -/
theorem idleAcceptsOneCommand : Obligations.IdleAcceptsOneCommand := by
  refine ⟨fun s => exec_idle_waits, fun s c rest hpend => ?_⟩
  have update : c.op = 0b01#2 → Op.ofBits c.op = .update := fun ho => by rw [ho]; rfl
  refine ⟨_, exec_idle_accepts hpend, fun ho => ?init, State.accept_hash_code _, fun ho hp hd => ?update,
    fun ho hp hd => ?nothing, fun ho hp => State.accept_final_code ho hp, fun ho hp => ?refused⟩
  case init => exact State.accept_init _ (by rw [ho]; rfl)
  case update =>
    obtain ⟨b, bs, hd⟩ := List.exists_cons_of_ne_nil hd
    rw [State.accept_update (s := { s with pending := rest }) (update ho) hp hd, hd]
    rfl
  case nothing =>
    rw [State.accept_update_nothing (s := { s with pending := rest }) (update ho) hp hd]
    exact ⟨fun _ => ({ s with pending := rest } : State).read_finishUpdate, rfl, State.finishUpdate_eq _⟩
  case refused =>
    obtain ⟨code, hcode⟩ := Phase.refusal_of_ne_active hp
    exact State.accept_refused (ho.imp update fun ho => by rw [ho]; rfl) hcode

/-! ## What has no row -/

theorem State.afterPayload_stuck {s : State} (h : s.payload = []) (ho : s.opl = .init ∨ s.opl = .final)
    (here : BitVec 4) : s.afterPayload here = .fault (.noTransition here s.opl) := by
  rcases ho with ho | ho <;> simp only [State.afterPayload, h, ho]

theorem exec_pad_stuck {s : State} (h : ¬ s.p.toNat ≤ 63) :
    exec .pad80 s = .fault (.bufIndex s.p) ∧ exec .padz s = .fault (.bufIndex s.p) :=
  ⟨if_neg h, if_neg h⟩

/-- `REFUSE` where R191 has no cause: the `ProtocolError` of R194, its code drawn (log entry 20). -/
theorem exec_refuse_active {s : State} (h : s.phase = .active) :
    exec .refuse s = .next (({ s with draws := s.draws + 1 } : State).protocolError
      (RspCode.ofBits (anyBits s.draws 2 31))) := by
  simp only [exec_refuse, State.refuse, h, Phase.refusal]

/-- Settles O49: each instruction's own guard fails; an `ABSORB` and a `COMBINE` end a payload with an `OPL` that has no
row there. -/
theorem unreachableCombinationsStop : Obligations.UnreachableCombinationsStop := by
  refine fun s => ⟨exec_uinit_stuck, fun hret hd ho => ?combine, fun b hd hn ho => ?absorb,
    fun hj => exec_round_stuck hj.not_ge, fun hp => exec_pad_stuck hp.not_ge,
    fun hp => exec_padlen_stuck (by omega), fun hp => ⟨_, _, exec_refuse_active hp, rfl⟩⟩
  case combine =>
    rw [exec_combine_abs hret]
    exact State.afterPayload_stuck (s := s.foldLines) hd ho _
  case absorb =>
    rw [exec_absorb_part hd hn]
    exact State.afterPayload_stuck (s := s.absorbed b []) rfl ho _

end Sys2Proof.Machine

namespace Sys2Proof.Machine

/-! # Admission, refusal and faults (60_exceptions.md) -/

/-! ## Nothing faults -/

/-- After a payload, `UPDATE` and `HASH` have a row for every state of the payload (45_sequencer.md R186). -/
theorem State.afterPayload_answers {s : State} (h : s.opl.hasPayload = true) (here : BitVec 4) :
    ∃ t, s.afterPayload here = .next t := by
  rcases s.afterPayload_cases here with ⟨-, e⟩ | ⟨-, -, e⟩ | ⟨-, -, e⟩ | ⟨-, ho, -⟩
  · exact ⟨_, e⟩
  · exact ⟨_, e⟩
  · exact ⟨_, e⟩
  · rcases ho with ho | ho <;> simp [ho, Op.hasPayload] at h

theorem exec_uinit_answers {s : State} (h : s.opl = .init ∨ s.opl = .hash) : ∃ t, exec .uinit s = .next t := by
  rcases h with h | h
  · exact ⟨_, exec_uinit_init h⟩
  · exact ⟨_, exec_uinit_hash h⟩

theorem exec_absorb_answers {s : State} (h : s.opl.hasPayload = true) : ∃ t, exec .absorb s = .next t := by
  cases hp : s.payload with
  | nil => exact ⟨_, exec_absorb_waits hp⟩
  | cons b rest =>
    by_cases hc : s.count = 63
    · exact ⟨_, exec_absorb_full hp hc⟩
    · rw [exec_absorb_part hp hc]
      exact State.afterPayload_answers (s := s.absorbed b rest) h _

theorem exec_combine_answers {s : State} (h : s.ret = .abs → s.opl.hasPayload = true) :
    ∃ t, exec .combine s = .next t := by
  cases hr : s.ret with
  | abs =>
    rw [exec_combine_abs hr]
    exact State.afterPayload_answers (s := s.foldLines) (h hr) _
  | spill => exact ⟨_, exec_combine_spill hr⟩
  | last => exact ⟨_, exec_combine_last hr⟩

/-- A whole command answers in every state: it is performed, refused, or not accepted yet (60_exceptions.md R193,
70_reset_and_hazards.md R228). -/
theorem exec_command_answers {i : Instr} (hi : i.isCommand = true) (s : State) : ∃ t, exec i s = .next t := by
  cases i with
  | init | update | final | hash => exact ⟨_, rfl⟩
  | _ => simp [Instr.isCommand] at hi

/-- The invariant's clause for the code in `SEQ` is the guard of the micro-operation that stands there. -/
theorem State.Inv.exec_answers {s : State} (h : s.Inv) {i : Instr} (hi : encode i = .sequencer s.seq) :
    ∃ t, exec i s = .next t := by
  have seq : ∀ {code : BitVec 4}, encode i = .sequencer code → s.seq = code := fun hc =>
    Token.sequencer.inj (hi.symm.trans hc)
  cases i with
  | init | update | final | hash => cases hi
  | idle =>
    cases hp : s.pending with
    | nil => exact ⟨_, exec_idle_waits hp⟩
    | cons c rest => exact ⟨_, exec_idle_accepts hp⟩
  | uinit => exact exec_uinit_answers (h.uinitOp (seq rfl))
  | absorb => exact exec_absorb_answers (h.absorbOp (seq rfl))
  | load => exact ⟨_, exec_load s⟩
  | round => exact ⟨_, exec_round (h.roundIndex (seq rfl))⟩
  | combine => exact exec_combine_answers (h.returnOp (.inr (.inr (seq rfl))))
  | latch => exact ⟨_, exec_latch s⟩
  | pad80 => exact ⟨_, exec_pad80 (h.padIndex (.inl (seq rfl)))⟩
  | padz => exact ⟨_, exec_padz (h.padIndex (.inr (seq rfl)))⟩
  | padlen =>
    obtain ⟨hl, hu⟩ := h.lengthIndex (seq rfl)
    exact ⟨_, exec_padlen hl hu⟩
  | out => exact ⟨_, exec_out s⟩
  | refuse => exact ⟨_, exec_refuse s⟩

/-- A used code of `SEQ` is decoded. -/
theorem exists_decodeSeq {code : BitVec 4} (h : code.toNat ≤ 0xB) : ∃ i, decodeSeq code = .ok i := by
  rcases decodeSeq_cases h with ⟨-, e⟩ | ⟨-, e⟩ | ⟨-, e⟩ | ⟨-, e⟩ | ⟨-, e⟩ | ⟨-, e⟩ | ⟨-, e⟩ | ⟨-, e⟩ | ⟨-, e⟩ |
    ⟨-, e⟩ | ⟨-, e⟩ | ⟨-, e⟩ <;> exact ⟨_, e⟩

/-- The engine's own step answers: it runs a whole command, or the micro-operation of a used code. -/
theorem State.Inv.stepEngine_answers {s : State} (h : s.Inv) : ∃ t, stepEngine s = .next t := by
  rcases s.fetch_cases with ⟨c, rest, -, -, -, e⟩ | ⟨-, e⟩
  · rw [stepEngine_of_decode (i := decodeCommand c) (by rw [e]; rfl)]
    exact exec_command_answers (decodeCommand_isCommand c) _
  · obtain ⟨i, hi⟩ := exists_decodeSeq h.seqUsed
    rw [stepEngine_of_decode (i := i) (by rw [e]; exact hi), e]
    exact h.exec_answers (encode_of_decodeSeq hi)

/-- Settles O56: the step is the reset event, or the engine's own on a state that differs in the host's reset port. -/
theorem nothingFaults : Obligations.NothingFaults := by
  intro s h
  match hr : s.rstIn with
  | [] => exact step_of_no_reset hr ▸ h.stepEngine_answers
  | 0 :: _ => exact ⟨_, step_of_reset hr⟩
  | (k + 1) :: later => exact step_of_later_reset hr ▸ (h.withRstIn (k :: later)).stepEngine_answers

/-! ## The admission check (R193) -/

/-- An admitted command answers with the code of its effect, a refused one with the cause. -/
theorem State.admitted_code {s effect : State} {digest : Option (List Byte)}
    (h : effect.response = some ⟨.ok, digest⟩) :
    ∃ r, (s.admitted effect).response = some r ∧ r.code = s.phase.refusal.getD .ok := by
  cases hc : s.phase.refusal with
  | none => exact ⟨_, by rw [State.admitted, hc]; exact h, rfl⟩
  | some code => exact ⟨_, by rw [State.admitted_refused hc]; rfl, rfl⟩

theorem exec_update_code {s : State} (hq : s.seq = SeqCode.idle) (data : List Byte) :
    ∃ t r, exec (.update data) s = .next t ∧ t.response = some r ∧ r.code = s.phase.refusal.getD .ok := by
  obtain ⟨r, hr, hc⟩ := State.admitted_code (s := s) (effect := (s.appendBytes data).finishUpdate) rfl
  exact ⟨_, r, by simp only [exec, execUpdate, State.whenIdle_of_idle hq], hr, hc⟩

theorem exec_final_code {s : State} (hq : s.seq = SeqCode.idle) :
    ∃ t r, exec .final s = .next t ∧ t.response = some r ∧ r.code = s.phase.refusal.getD .ok := by
  obtain ⟨r, hr, hc⟩ := State.admitted_code (s := s) (effect := s.computeDigest.finishFinal) rfl
  exact ⟨_, r, by simp only [exec, execFinal, State.whenIdle_of_idle hq], hr, hc⟩

/-- The rows `UPDATE` and `FINAL` of the table of R193. -/
theorem Phase.refusal_getD_ok (p : Phase) : p.refusal.getD .ok =
    if p = .uninit then .notInitialised else if p = .active then .ok else .alreadyFinalised := by
  cases p <;> rfl

/-- The same rows by the bits of `rsp_code` (R92). -/
theorem Phase.bits_refusal_getD_ok (p : Phase) : (p.refusal.getD .ok).bits =
    if p = .uninit then 0b01#2 else if p = .active then 0b00#2 else 0b10#2 := by
  cases p <;> rfl

/-- Settles O45: `INIT` and `HASH` end in their own response, `UPDATE` and `FINAL` answer what the admission check
says. -/
theorem admissionTable : Obligations.AdmissionTable := by
  intro s data hq answer
  have always : ∀ {i t r}, i = .init ∨ i = .hash data → exec i s = .next t → t.response = some r → r.code = .ok →
      answer i := fun hi ht hr hc =>
    ⟨_, _, ht, hr, hc.trans (if_pos hi).symm, (congrArg RspCode.bits hc).trans (if_pos hi).symm⟩
  have checked : ∀ {i}, ¬ (i = .init ∨ i = .hash data) →
      (∃ t r, exec i s = .next t ∧ t.response = some r ∧ r.code = s.phase.refusal.getD .ok) → answer i :=
    fun hi ⟨_, _, ht, hr, hc⟩ =>
      ⟨_, _, ht, hr, (hc.trans s.phase.refusal_getD_ok).trans (if_neg hi).symm,
        ((congrArg RspCode.bits hc).trans s.phase.bits_refusal_getD_ok).trans (if_neg hi).symm⟩
  exact ⟨always (.inl rfl) (exec_init hq) rfl rfl, checked (by simp) (exec_update_code hq data),
    checked (by simp) (exec_final_code hq), always (.inr rfl) (exec_hash hq data) rfl rfl⟩

/-! ## The refusal (R194) -/

/-- Where a command is refused, the phase names the cause. -/
theorem Phase.refusal_eq_some {p : Phase} (h : p ≠ .active) :
    p.refusal = some (if p = .uninit then .notInitialised else .alreadyFinalised) := by
  cases p with
  | uninit | done => rfl
  | active => exact absurd rfl h

/-- A refusal leaves `PHASE`, `DOUT` and the draws alone, so the host reads the same bytes. -/
@[simp] theorem State.readDout_protocolError (s : State) (code : RspCode) (i : Nat) :
    (s.protocolError code).readDout i = s.readDout i := rfl

/-- Settles O47: `REFUSE` and both refused commands end in the one `ProtocolError` of the phase. -/
theorem refusalTouchesNothingElse : Obligations.RefusalTouchesNothingElse := by
  intro s data hp
  have hc := Phase.refusal_eq_some hp
  exact ⟨_, exec_refuse_refused hc, rfl, s.readDout_protocolError _,
    fun hq => ⟨exec_update_refused hq hc data, exec_final_refused hq hc⟩⟩

end Sys2Proof.Machine

namespace Sys2Proof.Machine

/-! # Reset and hazards (70_reset_and_hazards.md) -/

/-! ## The legal command sequences (R222) -/

/-- The host command is admitted in this phase (R193). -/
def admittedIn : Instr → Phase → Prop
  | .init, _ => True
  | .hash _, _ => True
  | .update _, p => p = .active
  | .final, p => p = .active
  | _, _ => False

/-- The phase a host command leaves (10_state.md R30); a refused one leaves the phase it found (R194). -/
def phaseAfter : Instr → Phase → Phase
  | .init, _ => .active
  | .hash _, _ => .done
  | .final, .active => .done
  | _, p => p

/-- Every command of the list is admitted, in the phase the commands before it leave. -/
def AllAdmitted : Phase → List Instr → Prop
  | _, [] => True
  | p, i :: is => admittedIn i p ∧ AllAdmitted (phaseAfter i p) is

/-- A word of `INIT+ UPDATE*`. -/
def streamPrefix (k : Nat) (chunks : List (List Byte)) : List Instr :=
  List.replicate (k + 1) .init ++ chunks.map .update

/-- The admission check answers a cause only outside `ACTIVE`. -/
theorem Phase.ne_active_of_refusal {p : Phase} {code : RspCode} (h : p.refusal = some code) : p ≠ .active := by
  rintro rfl
  cases h

/-- What a host command does to `PHASE` and `ERR` in an idle engine: `ERR` stays clear exactly where the command is
admitted. -/
theorem ExecCase.command_effect {i : Instr} {s t : State} (h : ExecCase i s t) (hi : i.isCommand = true)
    (hq : s.seq = SeqCode.idle) :
    t.phase = phaseAfter i s.phase ∧ (t.err = false ↔ s.err = false ∧ admittedIn i s.phase) := by
  cases h with
  | busy _ hne => exact absurd hq hne
  | init | hash => simp [phaseAfter, admittedIn]
  | update _ hp | final _ hp => simp [hp, phaseAfter, admittedIn]
  | updateRefused _ hr | finalRefused _ hr => simp [Phase.ne_active_of_refusal hr, phaseAfter, admittedIn]
  | padToLength hp | padToSpill hp | padToZero hp => rcases hp with ⟨rfl, -⟩ | ⟨rfl, -⟩ <;> simp [Instr.isCommand] at hi
  | _ => simp [Instr.isCommand] at hi

theorem execCommands_cons {i : Instr} {s t : State} (h : exec i s = .next t) (is : List Instr) :
    execCommands (i :: is) s = execCommands is t := by
  simp only [execCommands, h]

/-- Every list of commands runs to its end, and `ERR` says whether each was admitted. -/
theorem execCommands_answers {commands : List Instr} (hc : ∀ i, i ∈ commands → i.isCommand = true) {s : State}
    (hq : s.seq = SeqCode.idle) :
    ∃ t, execCommands commands s = .next t ∧ t.seq = SeqCode.idle ∧
      (t.err = false ↔ s.err = false ∧ AllAdmitted s.phase commands) := by
  induction commands generalizing s with
  | nil => exact ⟨s, rfl, hq, by simp [AllAdmitted]⟩
  | cons i is ih =>
    obtain ⟨hi, his⟩ := List.forall_mem_cons.mp hc
    obtain ⟨u, hu⟩ := exec_command_answers hi s
    obtain ⟨hphase, herr⟩ := (exec_cases hu).command_effect hi hq
    obtain ⟨t, ht, htq, hte⟩ := ih his ((exec_cases hu).command_idle hi hq)
    exact ⟨t, (execCommands_cons hu is).trans ht, htq, by rw [hte, herr, hphase, and_assoc, AllAdmitted]⟩

/-- Words of `INIT+ UPDATE*` are admitted in every phase, and leave `ACTIVE`. -/
theorem allAdmitted_streamPrefix_append {p : Phase} {k : Nat} {chunks : List (List Byte)} {rest : List Instr} :
    AllAdmitted p (streamPrefix k chunks ++ rest) ↔ AllAdmitted .active rest := by
  have updates : AllAdmitted .active (chunks.map .update ++ rest) ↔ AllAdmitted .active rest := by
    induction chunks with
    | nil => rfl
    | cons d ds ih => simpa [AllAdmitted, admittedIn, phaseAfter] using ih
  rw [streamPrefix, List.append_assoc, ← updates]
  induction k generalizing p with
  | zero => simp [AllAdmitted, admittedIn, phaseAfter]
  | succ k ih => simpa [List.replicate_succ, AllAdmitted, admittedIn, phaseAfter] using ih (p := .active)

/-- A legal sequence is admitted in every phase: each of its words begins with `INIT` or `HASH`. -/
theorem LegalCommands.allAdmitted {commands : List Instr} (h : LegalCommands commands) (p : Phase) :
    AllAdmitted p commands := by
  induction h generalizing p with
  | empty => trivial
  | finished k chunks rest _ ih => exact allAdmitted_streamPrefix_append.mpr ⟨rfl, ih .done⟩
  | oneShot data rest _ ih => exact ⟨trivial, ih .done⟩
  | unfinished k chunks rest _ ih => exact allAdmitted_streamPrefix_append.mpr (ih .active)

theorem streamPrefix_append_update (k : Nat) (chunks : List (List Byte)) (d : List Byte) (rest : List Instr) :
    streamPrefix k chunks ++ .update d :: rest = streamPrefix k (chunks ++ [d]) ++ rest := by
  simp [streamPrefix]

/-- An admitted sequence is legal. In `ACTIVE` it completes any word of `INIT+ UPDATE*`, which is what has been read
there; in another phase it stands for itself. -/
theorem AllAdmitted.legal {commands : List Instr} : ∀ {p : Phase}, AllAdmitted p commands →
    (p ≠ .active → LegalCommands commands) ∧
    (p = .active → ∀ k chunks, LegalCommands (streamPrefix k chunks ++ commands)) := by
  induction commands with
  | nil => exact fun _ => ⟨fun _ => .empty, fun _ k chunks => .unfinished k chunks [] .empty⟩
  | cons i is ih =>
    rintro p ⟨hi, his⟩
    cases i with
    | init =>
      have h : LegalCommands (.init :: is) := (ih his).2 rfl 0 []
      exact ⟨fun _ => h, fun _ k chunks => .unfinished k chunks _ h⟩
    | hash data =>
      have h : LegalCommands (.hash data :: is) := .oneShot data is ((ih his).1 nofun)
      exact ⟨fun _ => h, fun _ k chunks => .unfinished k chunks _ h⟩
    | update d =>
      refine ⟨fun hp => absurd hi hp, fun hp k chunks => ?_⟩
      rw [streamPrefix_append_update]
      exact (ih his).2 hp k (chunks ++ [d])
    | final =>
      refine ⟨fun hp => absurd hi hp, fun hp k chunks => ?_⟩
      subst hp
      exact .finished k chunks is ((ih his).1 nofun)
    | _ => exact hi.elim

/-- Settles O46: every sequence runs to its end with `ERR` clear exactly where each command was admitted, and from
`UNINIT` the admitted sequences are the legal ones. -/
theorem legalSequencesAreNeverRefused : Obligations.LegalSequencesAreNeverRefused := by
  intro s commands hq hp he hc
  obtain ⟨t, ht, htq, herr⟩ := execCommands_answers hc hq
  have legal : AllAdmitted s.phase commands ↔ LegalCommands commands :=
    ⟨fun h => h.legal.1 (by simp [hp]), fun h => h.allAdmitted _⟩
  exact ⟨t, ht, htq, by rw [herr, legal, and_iff_right he]⟩

/-! ## The reset event, and what waits -/

/-- Settles O7: the event writes the fields R40 states, and of the host's ports only takes itself from the schedule. -/
theorem resetEventInterruptsAnything : Obligations.ResetEventInterruptsAnything := by
  intro s later hr
  have hstatus : s.resetEvent.status = 0b000#3 := by
    rw [State.status, State.resetEvent_err, State.resetEvent_phase]
    rfl
  exact ⟨_, step_of_reset hr, rfl, rfl, rfl, hstatus, rfl, rfl, rfl, by simp [hr], rfl⟩

/-- Settles O11: all four commands act through `State.whenIdle`, which keeps a busy engine as it is. -/
theorem busyEngineTakesNoCommand : Obligations.BusyEngineTakesNoCommand := by
  intro i s hi hq
  cases i with
  | init | update | final | hash => exact congrArg Host.Outcome.next (State.whenIdle_of_busy hq _)
  | _ => simp [Instr.isCommand] at hi

/-- Settles O21: the empty payload is the waiting case of `ABSORB`. -/
theorem absorbWaitsForAByte : Obligations.AbsorbWaitsForAByte :=
  fun _ hp => exec_absorb_waits hp

/-- The end of `INIT` leaves open only what is transient, so the engine holds what it held. -/
theorem State.Streaming.finishInit {s : State} {m : List Byte} (h : s.Streaming m) : s.finishInit.Streaming m where
  idle := rfl
  active := h.active
  chain := h.chain
  buffered := h.buffered
  counted := h.counted

/-- Settles O41: the new context holds the empty message, and the end of `INIT` keeps it. -/
theorem initStartsTheEmptyMessage : Obligations.InitStartsTheEmptyMessage :=
  fun _ hq => ⟨_, exec_init hq, (State.streaming_createContext hq).finishInit⟩

end Sys2Proof.Machine
